-- ==== Sys2Proof/Word.lean ====
section
/-! DEFINITION. The two word types of the block: bytes (registers, timers, memory) and 16-bit words
(pc, I, stack slots, instruction words). -/

namespace Sys2Proof

/-- An 8-bit value: a general register, a timer, a byte of memory (10_state.md R23, R33; 20_memory.md R47). -/
abbrev Byte := BitVec 8

/-- A 16-bit value: pc, I, a stack slot, an instruction word (10_state.md R26, R31, R32; 30_encoding.md R67). -/
abbrev Word := BitVec 16

end Sys2Proof
end

