-- ==== Sys2Proof/Syntax.lean ====
section
/-! DEFINITION. The instructions: one constructor per row of spec/opcode_table.json (30_encoding.md R76). -/

namespace Sys2Proof

/-- The index of a general register, V0 to VF; every value names a register (10_state.md R23). -/
abbrev Reg := Fin 16

/-- VF, `V[15]` (00_scope.md R18). -/
abbrev Reg.vf : Reg := 15

/-- The instructions, in the order of spec/opcode_table.json. `x`, `y` are register indices, `kk` an 8-bit immediate,
`nnn` a 12-bit address, `n` a row count (30_encoding.md R69 to R73).
`shr` and `shl` keep the `y` nibble of their word, which selects nothing (43_alu.md R104, R106; log 24). -/
inductive Instr where
  /-- `CLS` (00E0), R83. -/
  | cls
  /-- `RET` (00EE), R85. -/
  | ret
  /-- `JP addr` (1nnn), R86. -/
  | jp (nnn : BitVec 12)
  /-- `CALL addr` (2nnn), R87. -/
  | call (nnn : BitVec 12)
  /-- `SE Vx, byte` (3xkk), R89. -/
  | seVB (x : Reg) (kk : Byte)
  /-- `SNE Vx, byte` (4xkk), R90. -/
  | sneVB (x : Reg) (kk : Byte)
  /-- `SE Vx, Vy` (5xy0), R91. -/
  | seVV (x y : Reg)
  /-- `LD Vx, byte` (6xkk), R96. -/
  | ldVB (x : Reg) (kk : Byte)
  /-- `ADD Vx, byte` (7xkk), R97. -/
  | addVB (x : Reg) (kk : Byte)
  /-- `LD Vx, Vy` (8xy0), R98. -/
  | ldVV (x y : Reg)
  /-- `OR Vx, Vy` (8xy1), R99. -/
  | orVV (x y : Reg)
  /-- `AND Vx, Vy` (8xy2), R100. -/
  | andVV (x y : Reg)
  /-- `XOR Vx, Vy` (8xy3), R101. -/
  | xorVV (x y : Reg)
  /-- `ADD Vx, Vy` (8xy4), R102. -/
  | addVV (x y : Reg)
  /-- `SUB Vx, Vy` (8xy5), R103. -/
  | subVV (x y : Reg)
  /-- `SHR Vx` (8xy6), R104. -/
  | shr (x y : Reg)
  /-- `SUBN Vx, Vy` (8xy7), R105. -/
  | subnVV (x y : Reg)
  /-- `SHL Vx` (8xyE), R106. -/
  | shl (x y : Reg)
  /-- `SNE Vx, Vy` (9xy0), R92. -/
  | sneVV (x y : Reg)
  /-- `LD I, addr` (Annn), R108. -/
  | ldI (nnn : BitVec 12)
  /-- `JP V0, addr` (Bnnn), R88. -/
  | jpV0 (nnn : BitVec 12)
  /-- `RND Vx, byte` (Cxkk), R107. -/
  | rnd (x : Reg) (kk : Byte)
  /-- `DRW Vx, Vy, nibble` (Dxyn), R84; `n` is a count of rows, 0 to 15. -/
  | drw (x y : Reg) (n : Nat)
  /-- `SKP Vx` (Ex9E), R93. -/
  | skp (x : Reg)
  /-- `SKNP Vx` (ExA1), R94. -/
  | sknp (x : Reg)
  /-- `LD Vx, DT` (Fx07), R114. -/
  | ldVDT (x : Reg)
  /-- `LD Vx, K` (Fx0A), R115. -/
  | ldVK (x : Reg)
  /-- `LD DT, Vx` (Fx15), R116. -/
  | ldDTV (x : Reg)
  /-- `LD ST, Vx` (Fx18), R117. -/
  | ldSTV (x : Reg)
  /-- `ADD I, Vx` (Fx1E), R109. -/
  | addIV (x : Reg)
  /-- `LD F, Vx` (Fx29), R110. -/
  | ldFV (x : Reg)
  /-- `LD B, Vx` (Fx33), R111. -/
  | ldBV (x : Reg)
  /-- `LD [I], Vx` (Fx55), R112. -/
  | ldMemV (x : Reg)
  /-- `LD Vx, [I]` (Fx65), R113. -/
  | ldVMem (x : Reg)
  deriving DecidableEq, Repr

end Sys2Proof
end

