-- ==== Sys2Proof/WellFormed.lean ====
section
/-! DEFINITION. Which terms of Instr an instruction word can say. Register indices, immediates and addresses are in
range by their types; the row count of DRW, a plain count, is the one operand that is checked. -/

namespace Sys2Proof

/-- A row count of DRW fits its nibble: "`n` is used as a count 0 to 15" (30_encoding.md R73). -/
def countInRange (n : Nat) : Bool := n < 16

/-- The instruction can be encoded: every operand lies in the range its field has (30_encoding.md R69 to R73). -/
def Instr.wellFormed : Instr → Bool
  | .cls => true
  | .ret => true
  | .jp _ => true
  | .call _ => true
  | .seVB _ _ => true
  | .sneVB _ _ => true
  | .seVV _ _ => true
  | .ldVB _ _ => true
  | .addVB _ _ => true
  | .ldVV _ _ => true
  | .orVV _ _ => true
  | .andVV _ _ => true
  | .xorVV _ _ => true
  | .addVV _ _ => true
  | .subVV _ _ => true
  | .shr _ _ => true
  | .subnVV _ _ => true
  | .shl _ _ => true
  | .sneVV _ _ => true
  | .ldI _ => true
  | .jpV0 _ => true
  | .rnd _ _ => true
  | .drw _ _ n => countInRange n
  | .skp _ => true
  | .sknp _ => true
  | .ldVDT _ => true
  | .ldVK _ => true
  | .ldDTV _ => true
  | .ldSTV _ => true
  | .addIV _ => true
  | .ldFV _ => true
  | .ldBV _ => true
  | .ldMemV _ => true
  | .ldVMem _ => true

end Sys2Proof
end

