-- ==== Sys2Proof/Decode.lean ====
section
/-! DEFINITION. The fields of an instruction word, the decoder (30_encoding.md R75), the encoder (R74), and the opcode
table (spec/opcode_table.json) as data. -/

namespace Sys2Proof

/-! ## Fields (30_encoding.md R68 to R72) -/

/-- `op = w[15:12]` (R68). -/
def opField (w : Word) : BitVec 4 := w.extractLsb' 12 4
/-- `x = w[11:8]` (R69). -/
def xField (w : Word) : Reg := (w.extractLsb' 8 4).toFin
/-- `y = w[7:4]` (R70). -/
def yField (w : Word) : Reg := (w.extractLsb' 4 4).toFin
/-- `n = w[3:0]` (R71). -/
def nField (w : Word) : BitVec 4 := w.extractLsb' 0 4
/-- `kk = w[7:0]` (R72). -/
def kkField (w : Word) : Byte := w.extractLsb' 0 8
/-- `nnn = w[11:0]` (R72). -/
def nnnField (w : Word) : BitVec 12 := w.extractLsb' 0 12

/-! ## Decoder -/

/-- Group 0x0: the whole word is fixed (R75; strict, log 16). -/
def decodeGroup0 (w : Word) : Option Instr :=
  if w = 0x00E0#16 then some .cls
  else if w = 0x00EE#16 then some .ret
  else none

/-- Group 0x8: the secondary selector is `n` (R75). -/
def decodeGroup8 (w : Word) : Option Instr :=
  match nField w with
  | 0x0#4 => some (.ldVV (xField w) (yField w))
  | 0x1#4 => some (.orVV (xField w) (yField w))
  | 0x2#4 => some (.andVV (xField w) (yField w))
  | 0x3#4 => some (.xorVV (xField w) (yField w))
  | 0x4#4 => some (.addVV (xField w) (yField w))
  | 0x5#4 => some (.subVV (xField w) (yField w))
  | 0x6#4 => some (.shr (xField w) (yField w))
  | 0x7#4 => some (.subnVV (xField w) (yField w))
  | 0xE#4 => some (.shl (xField w) (yField w))
  | _ => none

/-- Group 0xE: the secondary selector is `kk` (R75). -/
def decodeGroupE (w : Word) : Option Instr :=
  match kkField w with
  | 0x9E#8 => some (.skp (xField w))
  | 0xA1#8 => some (.sknp (xField w))
  | _ => none

/-- Group 0xF: the secondary selector is `kk` (R75). -/
def decodeGroupF (w : Word) : Option Instr :=
  match kkField w with
  | 0x07#8 => some (.ldVDT (xField w))
  | 0x0A#8 => some (.ldVK (xField w))
  | 0x15#8 => some (.ldDTV (xField w))
  | 0x18#8 => some (.ldSTV (xField w))
  | 0x1E#8 => some (.addIV (xField w))
  | 0x29#8 => some (.ldFV (xField w))
  | 0x33#8 => some (.ldBV (xField w))
  | 0x55#8 => some (.ldMemV (xField w))
  | 0x65#8 => some (.ldVMem (xField w))
  | _ => none

/-- The decode procedure of 30_encoding.md R75; `none` where it raises `DecodeError(w)` (R77, R78). -/
def decode (w : Word) : Option Instr :=
  match opField w with
  | 0x0#4 => decodeGroup0 w
  | 0x1#4 => some (.jp (nnnField w))
  | 0x2#4 => some (.call (nnnField w))
  | 0x3#4 => some (.seVB (xField w) (kkField w))
  | 0x4#4 => some (.sneVB (xField w) (kkField w))
  | 0x5#4 => if nField w = 0#4 then some (.seVV (xField w) (yField w)) else none
  | 0x6#4 => some (.ldVB (xField w) (kkField w))
  | 0x7#4 => some (.addVB (xField w) (kkField w))
  | 0x8#4 => decodeGroup8 w
  | 0x9#4 => if nField w = 0#4 then some (.sneVV (xField w) (yField w)) else none
  | 0xA#4 => some (.ldI (nnnField w))
  | 0xB#4 => some (.jpV0 (nnnField w))
  | 0xC#4 => some (.rnd (xField w) (kkField w))
  | 0xD#4 => some (.drw (xField w) (yField w) (nField w).toNat)
  | 0xE#4 => decodeGroupE w
  | 0xF#4 => decodeGroupF w
  | _ => none

/-- The big-endian word of two bytes: `(hi << 8) | lo` (20_memory.md R53). -/
def wordOfBytes (hi lo : Byte) : Word := hi ++ lo

/-- The two bytes of a word as memory holds them, the high one at the lower address (20_memory.md R53). -/
def bytesOfWord (w : Word) : List Byte := [w.extractLsb' 8 8, w.extractLsb' 0 8]

/-- Why a byte sequence holds no instruction. -/
inductive DecodeReject where
  /-- The word matches no instruction pattern: `DecodeError(w)` (30_encoding.md R75). -/
  | decodeError (w : Word)
  /-- Fewer than the two bytes of an instruction (30_encoding.md R67). -/
  | truncated
  deriving DecidableEq, Repr

/-- What the decoder reads at the head of a byte sequence: an instruction and the bytes after it, or a rejection. -/
inductive Decoded where
  | instr (i : Instr) (rest : List Byte)
  | rejected (r : DecodeReject)
  deriving DecidableEq, Repr

/-- Decode the first instruction of any byte sequence: two bytes, big-endian (30_encoding.md R67). -/
def decodeBytes : List Byte → Decoded
  | hi :: lo :: rest =>
    match decode (wordOfBytes hi lo) with
    | some i => .instr i rest
    | none => .rejected (.decodeError (wordOfBytes hi lo))
  | _ => .rejected .truncated

/-- The instruction that was read, if any. -/
def Decoded.toOption : Decoded → Option Instr
  | .instr i _ => some i
  | .rejected _ => none

/-- The instruction word a host numbers `w` with `nbits` bits: bits above `nbits` are 0, and the one word of an
instruction is bits 15 to 0. -/
def tableWord (nbits w : Nat) : Word := BitVec.ofNat 16 (w % 2 ^ nbits)

/-- The instruction the decoder reads from a word numbered as spec/opcode_table.json numbers it, laid out in memory's
byte order. -/
def decodeTableWord (nbits w : Nat) : Option Instr :=
  (decodeBytes (bytesOfWord (tableWord nbits w))).toOption

/-! ## Encoder: the formats of 30_encoding.md R74 -/

/-- Format NNN: op, nnn. -/
def formatNNN (op : BitVec 4) (nnn : BitVec 12) : Word := op ++ nnn
/-- Format XKK, and XF with the function in the `kk` place: op, x, kk. -/
def formatXKK (op : BitVec 4) (x : Reg) (kk : Byte) : Word := op ++ BitVec.ofFin (w := 4) x ++ kk
/-- Format XYN, and XYF with the function in the `n` place: op, x, y, n. -/
def formatXYN (op : BitVec 4) (x y : Reg) (n : BitVec 4) : Word :=
  op ++ BitVec.ofFin (w := 4) x ++ BitVec.ofFin (w := 4) y ++ n

/-- The word of a well-formed instruction (30_encoding.md R74, R76; spec/opcode_table.json).
`shr` and `shl` write the `y` they carry; the assembler's choice is `y = 0` (R81; log 24). -/
def encode : Instr → Word
  | .cls => 0x00E0#16
  | .ret => 0x00EE#16
  | .jp nnn => formatNNN 0x1#4 nnn
  | .call nnn => formatNNN 0x2#4 nnn
  | .seVB x kk => formatXKK 0x3#4 x kk
  | .sneVB x kk => formatXKK 0x4#4 x kk
  | .seVV x y => formatXYN 0x5#4 x y 0x0#4
  | .ldVB x kk => formatXKK 0x6#4 x kk
  | .addVB x kk => formatXKK 0x7#4 x kk
  | .ldVV x y => formatXYN 0x8#4 x y 0x0#4
  | .orVV x y => formatXYN 0x8#4 x y 0x1#4
  | .andVV x y => formatXYN 0x8#4 x y 0x2#4
  | .xorVV x y => formatXYN 0x8#4 x y 0x3#4
  | .addVV x y => formatXYN 0x8#4 x y 0x4#4
  | .subVV x y => formatXYN 0x8#4 x y 0x5#4
  | .shr x y => formatXYN 0x8#4 x y 0x6#4
  | .subnVV x y => formatXYN 0x8#4 x y 0x7#4
  | .shl x y => formatXYN 0x8#4 x y 0xE#4
  | .sneVV x y => formatXYN 0x9#4 x y 0x0#4
  | .ldI nnn => formatNNN 0xA#4 nnn
  | .jpV0 nnn => formatNNN 0xB#4 nnn
  | .rnd x kk => formatXKK 0xC#4 x kk
  | .drw x y n => formatXYN 0xD#4 x y (BitVec.ofNat 4 n)
  | .skp x => formatXKK 0xE#4 x 0x9E#8
  | .sknp x => formatXKK 0xE#4 x 0xA1#8
  | .ldVDT x => formatXKK 0xF#4 x 0x07#8
  | .ldVK x => formatXKK 0xF#4 x 0x0A#8
  | .ldDTV x => formatXKK 0xF#4 x 0x15#8
  | .ldSTV x => formatXKK 0xF#4 x 0x18#8
  | .addIV x => formatXKK 0xF#4 x 0x1E#8
  | .ldFV x => formatXKK 0xF#4 x 0x29#8
  | .ldBV x => formatXKK 0xF#4 x 0x33#8
  | .ldMemV x => formatXKK 0xF#4 x 0x55#8
  | .ldVMem x => formatXKK 0xF#4 x 0x65#8

/-! ## The opcode table -/

/-- The mnemonic of an instruction, as spec/opcode_table.json spells it (30_encoding.md R81). -/
def Instr.mnemonic : Instr → String
  | .cls => "CLS"
  | .ret => "RET"
  | .jp _ => "JP"
  | .call _ => "CALL"
  | .seVB _ _ => "SE_VB"
  | .sneVB _ _ => "SNE_VB"
  | .seVV _ _ => "SE_VV"
  | .ldVB _ _ => "LD_VB"
  | .addVB _ _ => "ADD_VB"
  | .ldVV _ _ => "LD_VV"
  | .orVV _ _ => "OR"
  | .andVV _ _ => "AND"
  | .xorVV _ _ => "XOR"
  | .addVV _ _ => "ADD_VV"
  | .subVV _ _ => "SUB"
  | .shr _ _ => "SHR"
  | .subnVV _ _ => "SUBN"
  | .shl _ _ => "SHL"
  | .sneVV _ _ => "SNE_VV"
  | .ldI _ => "LD_I"
  | .jpV0 _ => "JP_V0"
  | .rnd _ _ => "RND"
  | .drw _ _ _ => "DRW"
  | .skp _ => "SKP"
  | .sknp _ => "SKNP"
  | .ldVDT _ => "LD_V_DT"
  | .ldVK _ => "LD_V_K"
  | .ldDTV _ => "LD_DT_V"
  | .ldSTV _ => "LD_ST_V"
  | .addIV _ => "ADD_I_V"
  | .ldFV _ => "LD_F_V"
  | .ldBV _ => "LD_B_V"
  | .ldMemV _ => "LD_MEM_V"
  | .ldVMem _ => "LD_V_MEM"

/-- One row of spec/opcode_table.json. -/
structure TableRow where
  mnemonic : String
  pattern : Word
  mask : Word
  deriving DecidableEq, Repr

/-- The word matches the row's full pattern, fixed nibbles included (30_encoding.md R75). -/
def TableRow.accepts (r : TableRow) (w : Word) : Bool := w &&& r.mask == r.pattern

/-- Rows of groups 0x0 to 0x7. -/
def tableRows0to7 : List TableRow :=
  [⟨"CLS", 0x00E0, 0xFFFF⟩, ⟨"RET", 0x00EE, 0xFFFF⟩, ⟨"JP", 0x1000, 0xF000⟩, ⟨"CALL", 0x2000, 0xF000⟩,
   ⟨"SE_VB", 0x3000, 0xF000⟩, ⟨"SNE_VB", 0x4000, 0xF000⟩, ⟨"SE_VV", 0x5000, 0xF00F⟩, ⟨"LD_VB", 0x6000, 0xF000⟩,
   ⟨"ADD_VB", 0x7000, 0xF000⟩]

/-- Rows of group 0x8. -/
def tableRows8 : List TableRow :=
  [⟨"LD_VV", 0x8000, 0xF00F⟩, ⟨"OR", 0x8001, 0xF00F⟩, ⟨"AND", 0x8002, 0xF00F⟩, ⟨"XOR", 0x8003, 0xF00F⟩,
   ⟨"ADD_VV", 0x8004, 0xF00F⟩, ⟨"SUB", 0x8005, 0xF00F⟩, ⟨"SHR", 0x8006, 0xF00F⟩, ⟨"SUBN", 0x8007, 0xF00F⟩,
   ⟨"SHL", 0x800E, 0xF00F⟩]

/-- Rows of groups 0x9 to 0xD. -/
def tableRows9toD : List TableRow :=
  [⟨"SNE_VV", 0x9000, 0xF00F⟩, ⟨"LD_I", 0xA000, 0xF000⟩, ⟨"JP_V0", 0xB000, 0xF000⟩, ⟨"RND", 0xC000, 0xF000⟩,
   ⟨"DRW", 0xD000, 0xF000⟩]

/-- Rows of groups 0xE and 0xF. -/
def tableRowsEF : List TableRow :=
  [⟨"SKP", 0xE09E, 0xF0FF⟩, ⟨"SKNP", 0xE0A1, 0xF0FF⟩, ⟨"LD_V_DT", 0xF007, 0xF0FF⟩, ⟨"LD_V_K", 0xF00A, 0xF0FF⟩,
   ⟨"LD_DT_V", 0xF015, 0xF0FF⟩, ⟨"LD_ST_V", 0xF018, 0xF0FF⟩, ⟨"ADD_I_V", 0xF01E, 0xF0FF⟩,
   ⟨"LD_F_V", 0xF029, 0xF0FF⟩, ⟨"LD_B_V", 0xF033, 0xF0FF⟩, ⟨"LD_MEM_V", 0xF055, 0xF0FF⟩,
   ⟨"LD_V_MEM", 0xF065, 0xF0FF⟩]

/-- spec/opcode_table.json: mnemonic, match and mask of its 34 rows, in its order. -/
def opcodeTable : List TableRow := tableRows0to7 ++ tableRows8 ++ tableRows9toD ++ tableRowsEF

end Sys2Proof
end

