-- ==== Sys2Proof/Machine/Flags.lean ====
section
/-! DEFINITION. Every flag the ALU computes into VF, as 0 or 1 (43_alu.md R95). -/

namespace Sys2Proof.Machine

/-- A flag as the byte written to VF: 1 or 0 (43_alu.md R95). -/
def flagByte (b : Bool) : Byte := if b then 1 else 0

/-- Carry of `ADD Vx, Vy`: the unsigned sum exceeds 255 (43_alu.md R102). -/
def carryFlag (a b : Byte) : Byte := flagByte (255 < a.toNat + b.toNat)

/-- The "greater" flag of `SUB` (a = V[x], b = V[y]) and `SUBN` (a = V[y], b = V[x]): strictly greater, so 0 for equal
operands (43_alu.md R103, R105). -/
def greaterFlag (a b : Byte) : Byte := flagByte (b.toNat < a.toNat)

/-- The bit `SHR` shifts out: bit 0 before the shift (43_alu.md R104). -/
def lowBitFlag (a : Byte) : Byte := a &&& 1

/-- The bit `SHL` shifts out: bit 7 before the shift (43_alu.md R106). -/
def highBitFlag (a : Byte) : Byte := a >>> 7

end Sys2Proof.Machine
end

