-- ==== Sys2Proof/Config.lean ====
section
/-! DEFINITION. What one implementation fixes (the font, 00_scope.md R14) and what the host leaves free once its
listed schedule is exhausted: which transaction comes, and its inputs. -/

namespace Sys2Proof

/-- The parameter `FONT`: 16 glyphs of 5 bytes (00_scope.md R14, 20_memory.md R52). -/
abbrev Font := Vector Byte 80

/-- The spec's default `FONT`, glyphs 0 to 7 (20_memory.md R52).
PRESUMED, unsafe (log 4): the bytes are no statement of the source. -/
def Config.glyphs0to7 : List Byte :=
  [0xF0, 0x90, 0x90, 0x90, 0xF0] ++ [0x20, 0x60, 0x20, 0x20, 0x70] ++
  [0xF0, 0x10, 0xF0, 0x80, 0xF0] ++ [0xF0, 0x10, 0xF0, 0x10, 0xF0] ++
  [0x90, 0x90, 0xF0, 0x10, 0x10] ++ [0xF0, 0x80, 0xF0, 0x10, 0xF0] ++
  [0xF0, 0x80, 0xF0, 0x90, 0xF0] ++ [0xF0, 0x10, 0x20, 0x40, 0x40]

/-- The spec's default `FONT`, glyphs 8 to F (20_memory.md R52). PRESUMED, unsafe (log 4). -/
def Config.glyphs8toF : List Byte :=
  [0xF0, 0x90, 0xF0, 0x90, 0xF0] ++ [0xF0, 0x90, 0xF0, 0x10, 0xF0] ++
  [0xF0, 0x90, 0xF0, 0x90, 0x90] ++ [0xE0, 0x90, 0xE0, 0x90, 0xE0] ++
  [0xF0, 0x80, 0x80, 0x80, 0xF0] ++ [0xE0, 0x90, 0x90, 0x90, 0xE0] ++
  [0xF0, 0x80, 0xF0, 0x80, 0xF0] ++ [0xF0, 0x80, 0xF0, 0x80, 0x80]

/-- The spec's default for the parameter `FONT`; only State.reset names it, every machine keeps the font its
memory carries. PRESUMED, unsafe (log 4). -/
def Config.defaultFont : Font :=
  ⟨(Config.glyphs0to7 ++ Config.glyphs8toF).toArray, rfl⟩

/-- Whether the `n`-th transaction the host issues beyond its listed schedule is a `Tick` (else it is a `Cycle`): a free
value, so that every interleaving of the two is admitted (60_exceptions.md R137; log 1). -/
opaque Config.freeTick : Nat → Bool

/-- The key vector of the `n`-th transaction beyond the listed schedule, where that is a `Cycle`: a free value (log 2). -/
opaque Config.freeKeys : Nat → BitVec 16

/-- The random byte of the `n`-th transaction beyond the listed schedule, where that is a `Cycle`: a free value, "a draw
under no law" (00_scope.md R16; log 2). -/
opaque Config.freeRnd : Nat → Byte

end Sys2Proof
end

