-- ==== Sys2Proof/Machine/State.lean ====
section
/-! DEFINITION. The state of the block as plain data (10_state.md R42, R43; 20_memory.md R47), the parameters and inputs
of the model (10_state.md R41), and the state after reset (70_reset_and_hazards.md R143, R144). -/

namespace Sys2Proof.Machine

/-- What a fault records of its cause: the kind and its info (60_exceptions.md R119, R120). -/
inductive FaultCause where
  /-- Code 1: a program image of `length` bytes, more than 3584; raised by `Load` (R121). -/
  | loadError (length : Nat)
  /-- Code 2: the fetched word matches no instruction pattern (R122). -/
  | decodeError (w : Word)
  /-- Code 3: `CALL` with 16 entries on the stack (R123). -/
  | stackOverflow
  /-- Code 4: `RET` with the stack empty (R124). -/
  | stackUnderflow
  /-- Code 5: a byte address above 0xFFF or a key index above 15; `info` is that address or index (R125). -/
  | outOfBounds (info : Nat)
  deriving DecidableEq, Repr

/-- The fault record latched on a fault: kind and info, and the address of the faulting instruction
(60_exceptions.md R127). -/
structure FaultRecord where
  cause : FaultCause
  pc0 : Word
  deriving DecidableEq, Repr

/-- `run_state` with the fault record, which is "valid only when `run_state = HALTED`" (10_state.md R38). -/
inductive RunState where
  | running
  | halted (record : FaultRecord)
  deriving DecidableEq, Repr

/-- What `Cycle` and `Load` return (10_state.md R45; 70_reset_and_hazards.md R146, R147). -/
inductive Status where
  | ok
  | waiting
  | fault (record : FaultRecord)
  deriving DecidableEq, Repr

/-- A transaction of the host with the block (10_state.md R44); reading an output changes nothing and is no step. -/
inductive Transaction where
  | reset
  | load (rom : List Byte)
  | cycle (keys : BitVec 16) (rnd : Byte)
  | tick
  deriving DecidableEq, Repr

/-- Memory: the parameter FONT it was created with (20_memory.md R52) and the bytes that differ from what it held then,
as (address, byte) pairs in rising order of address. `Memory.wf` says which lists are canonical. -/
structure Memory where
  font : Font
  cells : List Host.Cell
  deriving DecidableEq, Repr

/-- The framebuffer: column `c` (0 to 63), then row `r` (0 to 31) (10_state.md R35). -/
abbrev Framebuffer := Vector (Vector Bool 32) 64

/-- The state of the block, then the inputs of its current cycle, then the host's side. -/
structure State where
  /-- General registers V0 to VF (10_state.md R23). -/
  V : Vector Byte 16
  /-- Address register (10_state.md R32). -/
  I : Word
  /-- Program counter (10_state.md R26). -/
  pc : Word
  /-- Stack pointer: `none` is `EMPTY`, `some j` the index of the top entry (10_state.md R30). -/
  sp : Option (Fin 16)
  /-- The 16 stack slots (10_state.md R31). -/
  stack : Vector Word 16
  /-- Delay timer (10_state.md R33). -/
  DT : Byte
  /-- Sound timer (10_state.md R34). -/
  ST : Byte
  /-- Framebuffer (10_state.md R35). -/
  fb : Framebuffer
  /-- `run_state` and the fault record (10_state.md R38). -/
  runState : RunState
  /-- Memory, 4096 bytes (20_memory.md R47). -/
  mem : Memory
  /-- The key vector sampled at the start of the current cycle; bit k is `key[k]` (10_state.md R36; log 10). -/
  keys : BitVec 16
  /-- The random byte of the current cycle (10_state.md R44; log 10). -/
  rnd : Byte
  /-- `Load` is still accepted (70_reset_and_hazards.md R148; log 23). -/
  loadOpen : Bool
  /-- What the last `Cycle` or `Load` returned (10_state.md R45; log 12). -/
  status : Option Status
  /-- The model's own field: the host's transactions still to come, first one first (log 1). -/
  host : List Transaction
  /-- The model's own field: how many transactions beyond the list have been taken (logs 1, 2). -/
  draws : Nat
  deriving DecidableEq, Repr

/-- The faults that end a step without a next state: none, raised by nothing, so the type has no constructor. Every fault
of the spec is an entry to HALTED, which is a next state (60_exceptions.md R127, R128; log 11). -/
inductive Fault where
  deriving DecidableEq, Repr

/-- The reasons a step has no meaning. -/
inductive Refusal where
  /-- Raised by an arm of exec whose instruction has no meaning yet (no arm is one now); safe. -/
  | notModelled (mnemonic : String)
  /-- Raised by a `Load` after the first `Cycle` or after a `Load`: "a model refuses it rather than give it a meaning"
  (70_reset_and_hazards.md R148); safe. -/
  | loadOutsideSlot
  deriving DecidableEq, Repr

/-- The result of one step of this machine. -/
abbrev Result := Host.Outcome State Fault Refusal

/-- The machine right after `Reset` (70_reset_and_hazards.md R143 to R145), before any `Load`. The values of sp, stack,
DT, ST, fb and of memory outside the font are the spec's own decisions D2 to D6 (DESIGN CHOICE, unsafe: logs 5 to 9);
the font is the spec's default (PRESUMED, unsafe: log 4); keys, rnd, status, host and draws are the model's
(DESIGN CHOICE: logs 1, 2, 10, 12). -/
def State.reset : State where
  V := Vector.replicate 16 0
  I := 0
  pc := 0x200
  sp := none
  stack := Vector.replicate 16 0
  DT := 0
  ST := 0
  fb := Vector.replicate 64 (Vector.replicate 32 false)
  runState := .running
  mem := ⟨Config.defaultFont, []⟩
  keys := 0
  rnd := 0
  loadOpen := true
  status := none
  host := []
  draws := 0

end Sys2Proof.Machine
end

