-- ==== Sys2Proof/Machine/Operands.lean ====
section
/-! DEFINITION. The operand forms: registers, zero-extended addresses, effective addresses I + k, key indices, sprite
coordinates and decimal digits. -/

namespace Sys2Proof.Machine

/-- `V[x]` (00_scope.md R18). -/
def State.reg (s : State) (x : Reg) : Byte := s.V[x]

/-- `zext_16(nnn)`: an address field as a 16-bit value, 0x000 to 0xFFF (30_encoding.md R73). -/
def addrWord (nnn : BitVec 12) : Word := nnn.setWidth 16

/-- `zext_16` of an 8-bit register value, for sums with pc-wide values (41_control_transfer.md R88, 44_index_memory.md R109). -/
def byteWord (b : Byte) : Word := b.setWidth 16

/-- The effective address `EA = I + k`, "without wrap-around and without masking I to 12 bits" (20_memory.md R55; log 14). -/
def State.effectiveAddress (s : State) (k : Nat) : Nat := s.I.toNat + k

/-- The lowest address above 0xFFF among the `n` effective addresses `I + 0` to `I + (n-1)`, which is the one an access of
`n` bytes raises `OutOfBounds` with (20_memory.md R55, 60_exceptions.md R129). -/
def State.firstBadAddress (s : State) (n : Nat) : Option Nat :=
  ((List.range n).map s.effectiveAddress).find? (fun a => 0xFFF < a)

/-- Key `k` of the cycle's key vector is pressed; only k = 0 to 15 exist (10_state.md R36). -/
def State.keyPressed (s : State) (k : Nat) : Bool := s.keys.getLsbD k

/-- The lowest-numbered pressed key, `min { k : key[k] }` (45_timers_input.md R115; log 18). -/
def State.firstPressedKey (s : State) : Option (Fin 16) :=
  (List.finRange 16).find? (fun k => s.keyPressed k)

/-- The sprite's left column `x0 = V[x] mod 64` (40_display.md R84). -/
def spriteColumn (b : Byte) : Nat := b.toNat % 64

/-- The sprite's top row `y0 = V[y] mod 32` (40_display.md R84). -/
def spriteRow (b : Byte) : Nat := b.toNat % 32

/-- The decimal digits of a byte, hundreds first (44_index_memory.md R111). -/
def bcdDigits (b : Byte) : List Byte :=
  [BitVec.ofNat 8 (b.toNat / 100), BitVec.ofNat 8 (b.toNat / 10 % 10), BitVec.ofNat 8 (b.toNat % 10)]

/-- The address of the glyph of a digit, `V[x] * 5`, not masked: 0 to 1275 (44_index_memory.md R110; log 20). -/
def glyphAddress (b : Byte) : Word := byteWord b * 5

end Sys2Proof.Machine
end

