-- ==== Sys2Proof/Machine/Ops.lean ====
section
/-! DEFINITION. The operations every meaning is built from: memory, registers, stack, framebuffer, and the ways a cycle
ends (committed, waiting, faulted). -/

namespace Sys2Proof.Machine

/-! ## Memory (20_memory.md) -/

/-- What an unlisted address reads as: the font at 0x000 to 0x04F, 0 elsewhere (70_reset_and_hazards.md R144; log 5). -/
def Memory.background (m : Memory) (a : Nat) : Byte := if h : a < 80 then m.font[a] else 0

/-- The byte a list of cells gives an address. -/
def Memory.lookup (a : Nat) : List Host.Cell → Option Byte
  | [] => none
  | c :: rest => if c.1 = a then some c.2 else Memory.lookup a rest

/-- The cells with `(a, b)` at its place, in rising order of address. -/
def Memory.insertCell (a : Nat) (b : Byte) : List Host.Cell → List Host.Cell
  | [] => [(a, b)]
  | c :: rest =>
    if a < c.1 then (a, b) :: c :: rest
    else if a = c.1 then (a, b) :: rest
    else c :: Memory.insertCell a b rest

/-- The cells without address `a`. -/
def Memory.eraseCell (a : Nat) (cells : List Host.Cell) : List Host.Cell := cells.filter (fun c => c.1 ≠ a)

/-- `MemRead(a, 1)` of an address in range (00_scope.md R18, 20_memory.md R47). -/
def Memory.read (m : Memory) (a : Nat) : Byte := (Memory.lookup a m.cells).getD (m.background a)

/-- `MemWrite(a, 1, b)` of an address in range. Writing what an unlisted address reads as removes the entry. -/
def Memory.write (m : Memory) (a : Nat) (b : Byte) : Memory :=
  if b = m.background a then { m with cells := Memory.eraseCell a m.cells }
  else { m with cells := Memory.insertCell a b m.cells }

/-- Write bytes at `a`, `a + 1`, … in that order (20_memory.md R62). -/
def Memory.writeList (m : Memory) (a : Nat) : List Byte → Memory
  | [] => m
  | b :: bs => Memory.writeList (m.write a b) (a + 1) bs

/-- Read `n` bytes at `a`, `a + 1`, … in that order (20_memory.md R62). -/
def Memory.readList (m : Memory) (a n : Nat) : List Byte := (List.range n).map (fun k => m.read (a + k))

/-- The canonical form: addresses inside memory and strictly rising, no entry equal to what an unlisted address reads as. -/
abbrev Memory.wf (m : Memory) : Prop :=
  m.cells.Pairwise (fun c d => c.1 < d.1) ∧ ∀ c ∈ m.cells, c.1 ≤ 0xFFF ∧ c.2 ≠ m.background c.1

/-! ## Registers, program counter, stack -/

/-- `V[x] <- b` (00_scope.md R18). -/
def State.setReg (s : State) (x : Reg) (b : Byte) : State := { s with V := s.V.set x b }

/-- `VF <- b` (00_scope.md R18). -/
def State.setVF (s : State) (b : Byte) : State := s.setReg .vf b

/-- `V[k] <- b` for `k`, `k + 1`, … in that order, one byte each (44_index_memory.md R113). -/
def State.setRegsFrom (s : State) (k : Nat) : List Byte → State
  | [] => s
  | b :: bs => (s.setReg (Fin.ofNat 16 k) b).setRegsFrom (k + 1) bs

/-- `V[0]` to `V[x]`, in that order (44_index_memory.md R112). -/
def State.regsUpTo (s : State) (x : Reg) : List Byte :=
  (List.range (x.val + 1)).map (fun k => s.reg (Fin.ofNat 16 k))

/-- `pc <- pc + 2`: the fetch increment (10_state.md R27; a 16-bit sum, log 28). -/
def State.advance (s : State) : State := { s with pc := s.pc + 2 }

/-- `pc <- target` (00_scope.md R18). -/
def State.jumpTo (s : State) (target : Word) : State := { s with pc := target }

/-- A skip: `pc <- pc + 2` on top of the fetch increment when the condition holds (10_state.md R28). -/
def State.skipIf (s : State) (c : Bool) : State := if c then s.jumpTo (s.pc + 2) else s

/-- `sp + 1` with EMPTY as -1; `none` when it would exceed 15 (10_state.md R30). -/
def pushedIndex : Option (Fin 16) → Option (Fin 16)
  | none => some 0
  | some j => if h : j.val + 1 < 16 then some ⟨j.val + 1, h⟩ else none

/-- `sp - 1` with EMPTY as -1 (10_state.md R30). -/
def poppedIndex (j : Fin 16) : Option (Fin 16) :=
  if h : 0 < j.val then some ⟨j.val - 1, by omega⟩ else none

/-! ## Framebuffer (40_display.md R84) -/

/-- `fb[c][r]` (00_scope.md R18). -/
def Framebuffer.pixel (fb : Framebuffer) (c : Fin 64) (r : Fin 32) : Bool := fb[c][r]

/-- `fb[c][r] <- fb[c][r] ^ 1`. -/
def Framebuffer.toggle (fb : Framebuffer) (c : Fin 64) (r : Fin 32) : Framebuffer :=
  fb.set c (fb[c].set r (!fb[c][r]))

/-- Every pixel 0 (40_display.md R83). -/
def Framebuffer.blank : Framebuffer := Vector.replicate 64 (Vector.replicate 32 false)

/-- The framebuffer while a sprite is drawn, and whether a set pixel has been turned off so far. -/
structure Canvas where
  fb : Framebuffer
  collision : Bool
  deriving DecidableEq, Repr

/-- One set bit of a sprite: note a collision, then toggle the pixel (R84). -/
def Canvas.plot (k : Canvas) (c : Fin 64) (r : Fin 32) : Canvas :=
  ⟨Framebuffer.toggle k.fb c r, k.collision || Framebuffer.pixel k.fb c r⟩

/-- Bit `7 - c` of a sprite byte, at column `(x0 + c) mod 64` (R84: columns wrap; log 26). -/
def Canvas.drawBit (x0 : Nat) (r : Fin 32) (b : Byte) (k : Canvas) (c : Nat) : Canvas :=
  if b.getLsbD (7 - c) then k.plot (Fin.ofNat 64 (x0 + c)) r else k

/-- The 8 bits of a sprite byte, most significant (leftmost) first (R84). -/
def Canvas.drawByte (x0 : Nat) (r : Fin 32) (b : Byte) (k : Canvas) : Canvas :=
  (List.range 8).foldl (Canvas.drawBit x0 r b) k

/-- The sprite bytes, one row each from row `y0`, row `y` at `y mod 32` (R84: rows wrap). -/
def Canvas.drawRows (x0 y0 : Nat) : List Byte → Canvas → Canvas
  | [], k => k
  | b :: bs, k => Canvas.drawRows x0 (y0 + 1) bs (Canvas.drawByte x0 (Fin.ofNat 32 y0) b k)

/-! ## How a cycle ends (10_state.md R45, R46) -/

/-- The cycle commits its effects and returns OK. -/
def State.committed (s : State) : State := { s with status := some .ok }

/-- The cycle commits nothing and returns WAITING; applied to the state before the instruction (45_timers_input.md R115). -/
def State.waiting (s : State) : State := { s with status := some .waiting }

/-- Latch a fault record: `run_state <- HALTED`, and the transaction returns FAULT (60_exceptions.md R127; log 11). -/
def State.halt (s : State) (r : FaultRecord) : State :=
  { s with runState := .halted r, status := some (.fault r) }

/-- TAKING A FAULT: `raise` in an instruction fetched at `pc0 = s.pc`. Nothing of the cycle is committed, pc keeps pc0,
there is no handler (60_exceptions.md R126, R127); applied to the state before the instruction. There is no return from a
fault (R118, R131): only `Reset` leaves HALTED (R128). -/
def State.raise (s : State) (c : FaultCause) : State := s.halt ⟨c, s.pc⟩

/-- An access of `n` bytes at `I`: every address is checked before anything is written (20_memory.md R55,
60_exceptions.md R126); `done` is the state the instruction commits when all are in range. -/
def State.withAccess (s : State) (n : Nat) (done : State) : State :=
  match s.firstBadAddress n with
  | some a => s.raise (.outOfBounds a)
  | none => done.committed

/-- The check of a key index (42_skips.md R93, R94; log 19). -/
def State.withKeyIndex (s : State) (k : Byte) (done : State) : State :=
  if 15 < k.toNat then s.raise (.outOfBounds k.toNat) else done.committed

/-! ## Fault kinds, codes and infos (60_exceptions.md R120) -/

/-- The five fault kinds (60_exceptions.md R119). -/
inductive FaultKind where
  | loadError | decodeError | stackOverflow | stackUnderflow | outOfBounds
  deriving DecidableEq, Repr

/-- The spec's number of a kind (R120; log 13). -/
def FaultKind.code : FaultKind → Nat
  | .loadError => 1
  | .decodeError => 2
  | .stackOverflow => 3
  | .stackUnderflow => 4
  | .outOfBounds => 5

/-- The kind of a cause. -/
def FaultCause.kind : FaultCause → FaultKind
  | .loadError _ => .loadError
  | .decodeError _ => .decodeError
  | .stackOverflow => .stackOverflow
  | .stackUnderflow => .stackUnderflow
  | .outOfBounds _ => .outOfBounds

/-- The info a cause records: the image length, the word, an address or key index, or none (R120). -/
def FaultCause.info : FaultCause → Option Nat
  | .loadError l => some l
  | .decodeError w => some w.toNat
  | .stackOverflow => none
  | .stackUnderflow => none
  | .outOfBounds a => some a

end Sys2Proof.Machine
end

