-- ==== Sys2Proof/Machine/Alu.lean ====
section
/-! DEFINITION. Register loads, arithmetic and logic, and RND (43_alu.md). Statements are performed in the order the rule
writes them, each reading the state the earlier ones left (00_scope.md R19; log 17). -/

namespace Sys2Proof.Machine

/-- `LD Vx, byte` (43_alu.md R96). -/
def execLdVB (x : Reg) (kk : Byte) (s : State) : Result := .next (s.advance.setReg x kk).committed

/-- `ADD Vx, byte` (43_alu.md R97): no flag. -/
def execAddVB (x : Reg) (kk : Byte) (s : State) : Result := .next (s.advance.setReg x (s.reg x + kk)).committed

/-- `LD Vx, Vy` (43_alu.md R98). -/
def execLdVV (x y : Reg) (s : State) : Result := .next (s.advance.setReg x (s.reg y)).committed

/-- `OR Vx, Vy` (43_alu.md R99). -/
def execOr (x y : Reg) (s : State) : Result := .next (s.advance.setReg x (s.reg x ||| s.reg y)).committed

/-- `AND Vx, Vy` (43_alu.md R100). -/
def execAnd (x y : Reg) (s : State) : Result := .next (s.advance.setReg x (s.reg x &&& s.reg y)).committed

/-- `XOR Vx, Vy` (43_alu.md R101). -/
def execXor (x y : Reg) (s : State) : Result := .next (s.advance.setReg x (s.reg x ^^^ s.reg y)).committed

/-- `ADD Vx, Vy` (43_alu.md R102): the sum is bound first, then `V[x]`, then VF. -/
def execAddVV (x y : Reg) (s : State) : Result :=
  .next ((s.advance.setReg x (s.reg x + s.reg y)).setVF (carryFlag (s.reg x) (s.reg y))).committed

/-- `V[x] <- V[x] - V[y]` in a state whose VF is already the flag (43_alu.md R103). -/
def State.subtractInto (s : State) (x y : Reg) : State := s.setReg x (s.reg x - s.reg y)

/-- `SUB Vx, Vy` (43_alu.md R103): VF first, then the subtraction, which reads the new VF where it is an operand. -/
def execSub (x y : Reg) (s : State) : Result :=
  .next ((s.advance.setVF (greaterFlag (s.reg x) (s.reg y))).subtractInto x y).committed

/-- `V[x] <- V[x] >> 1` in a state whose VF is already the flag (43_alu.md R104). -/
def State.shiftRightInto (s : State) (x : Reg) : State := s.setReg x (s.reg x >>> 1)

/-- `SHR Vx` (43_alu.md R104): `y` selects nothing. -/
def execShr (x : Reg) (s : State) : Result :=
  .next ((s.advance.setVF (lowBitFlag (s.reg x))).shiftRightInto x).committed

/-- `V[x] <- V[y] - V[x]` in a state whose VF is already the flag (43_alu.md R105). -/
def State.reverseSubtractInto (s : State) (x y : Reg) : State := s.setReg x (s.reg y - s.reg x)

/-- `SUBN Vx, Vy` (43_alu.md R105): VF first, then the subtraction. -/
def execSubn (x y : Reg) (s : State) : Result :=
  .next ((s.advance.setVF (greaterFlag (s.reg y) (s.reg x))).reverseSubtractInto x y).committed

/-- `V[x] <- (V[x] << 1) mod 256` in a state whose VF is already the flag (43_alu.md R106). -/
def State.shiftLeftInto (s : State) (x : Reg) : State := s.setReg x (s.reg x <<< 1)

/-- `SHL Vx` (43_alu.md R106): `y` selects nothing. -/
def execShl (x : Reg) (s : State) : Result :=
  .next ((s.advance.setVF (highBitFlag (s.reg x))).shiftLeftInto x).committed

/-- `RND Vx, byte` (43_alu.md R107): `rnd` is the cycle's input. -/
def execRnd (x : Reg) (kk : Byte) (s : State) : Result := .next (s.advance.setReg x (s.rnd &&& kk)).committed

end Sys2Proof.Machine
end

