-- ==== Sys2Proof/Machine/Control.lean ====
section
/-! DEFINITION. RET, JP, CALL and JP_V0 (41_control_transfer.md). -/

namespace Sys2Proof.Machine

/-- `RET` (41_control_transfer.md R85): the popped slot is not cleared. -/
def execRet (s : State) : Result :=
  match s.sp with
  | none => .next (s.raise .stackUnderflow)
  | some j => .next { s with pc := s.stack[j], sp := poppedIndex j }.committed

/-- `JP addr` (41_control_transfer.md R86). -/
def execJp (nnn : BitVec 12) (s : State) : Result := .next (s.jumpTo (addrWord nnn)).committed

/-- `CALL addr` (41_control_transfer.md R87): pushes `pc0 + 2`. -/
def execCall (nnn : BitVec 12) (s : State) : Result :=
  match pushedIndex s.sp with
  | none => .next (s.raise .stackOverflow)
  | some j => .next { s with sp := some j, stack := s.stack.set j s.advance.pc, pc := addrWord nnn }.committed

/-- `JP V0, addr` (41_control_transfer.md R88): the sum is not reduced, at most 0x10FE. -/
def execJpV0 (nnn : BitVec 12) (s : State) : Result :=
  .next (s.jumpTo (addrWord nnn + byteWord (s.reg 0))).committed

end Sys2Proof.Machine
end

