-- ==== Sys2Proof/Machine/Display.lean ====
section
/-! DEFINITION. CLS and DRW (40_display.md). Every meaning is applied to the state before the instruction, with pc = pc0. -/

namespace Sys2Proof.Machine

/-- `CLS` (40_display.md R83). -/
def execCls (s : State) : Result := .next { s.advance with fb := Framebuffer.blank }.committed

/-- The sprite of `DRW` drawn on the framebuffer: rows at `I`, `I + 1`, …, coordinates read before any write (R84). -/
def State.drawSprite (s : State) (x y : Reg) (n : Nat) : Canvas :=
  Canvas.drawRows (spriteColumn (s.reg x)) (spriteRow (s.reg y)) (s.mem.readList s.I.toNat n) ⟨s.fb, false⟩

/-- `DRW Vx, Vy, nibble` (40_display.md R84). `VF <- 0`, then `VF <- 1` at each collision, is one write of the collision
flag, since nothing reads VF in between; x0 and y0 are taken before it (log 17). -/
def execDrw (x y : Reg) (n : Nat) (s : State) : Result :=
  .next (s.withAccess n
    ({ s.advance with fb := (s.drawSprite x y n).fb }.setVF (flagByte (s.drawSprite x y n).collision)))

end Sys2Proof.Machine
end

