-- ==== Sys2Proof/Machine/IndexMemory.lean ====
section
/-! DEFINITION. The address register and the moves between registers and memory (44_index_memory.md). None of them changes
I as a side effect (log 21). -/

namespace Sys2Proof.Machine

/-- `LD I, addr` (44_index_memory.md R108). -/
def execLdI (nnn : BitVec 12) (s : State) : Result := .next { s.advance with I := addrWord nnn }.committed

/-- `ADD I, Vx` (44_index_memory.md R109): wraps modulo 65536, no flag (log 25). -/
def execAddI (x : Reg) (s : State) : Result := .next { s.advance with I := s.I + byteWord (s.reg x) }.committed

/-- `LD F, Vx` (44_index_memory.md R110): not masked (log 20). -/
def execLdF (x : Reg) (s : State) : Result := .next { s.advance with I := glyphAddress (s.reg x) }.committed

/-- `LD B, Vx` (44_index_memory.md R111). -/
def execLdB (x : Reg) (s : State) : Result :=
  .next (s.withAccess 3 { s.advance with mem := s.mem.writeList s.I.toNat (bcdDigits (s.reg x)) })

/-- `LD [I], Vx` (44_index_memory.md R112): stores V0 to Vx. -/
def execLdMemV (x : Reg) (s : State) : Result :=
  .next (s.withAccess (x.val + 1) { s.advance with mem := s.mem.writeList s.I.toNat (s.regsUpTo x) })

/-- `LD Vx, [I]` (44_index_memory.md R113): loads V0 to Vx. -/
def execLdVMem (x : Reg) (s : State) : Result :=
  .next (s.withAccess (x.val + 1) (s.advance.setRegsFrom 0 (s.mem.readList s.I.toNat (x.val + 1))))

end Sys2Proof.Machine
end

