-- ==== Sys2Proof/Machine/Skips.lean ====
section
/-! DEFINITION. The six conditional skips (42_skips.md). -/

namespace Sys2Proof.Machine

/-- `SE Vx, byte` (42_skips.md R89). -/
def execSeVB (x : Reg) (kk : Byte) (s : State) : Result := .next (s.advance.skipIf (s.reg x == kk)).committed

/-- `SNE Vx, byte` (42_skips.md R90). -/
def execSneVB (x : Reg) (kk : Byte) (s : State) : Result := .next (s.advance.skipIf (s.reg x != kk)).committed

/-- `SE Vx, Vy` (42_skips.md R91). -/
def execSeVV (x y : Reg) (s : State) : Result := .next (s.advance.skipIf (s.reg x == s.reg y)).committed

/-- `SNE Vx, Vy` (42_skips.md R92). -/
def execSneVV (x y : Reg) (s : State) : Result := .next (s.advance.skipIf (s.reg x != s.reg y)).committed

/-- `SKP Vx` (42_skips.md R93). -/
def execSkp (x : Reg) (s : State) : Result :=
  .next (s.withKeyIndex (s.reg x) (s.advance.skipIf (s.keyPressed (s.reg x).toNat)))

/-- `SKNP Vx` (42_skips.md R94). -/
def execSknp (x : Reg) (s : State) : Result :=
  .next (s.withKeyIndex (s.reg x) (s.advance.skipIf (!s.keyPressed (s.reg x).toNat)))

end Sys2Proof.Machine
end

