-- ==== Sys2Proof/Machine/TimersInput.lean ====
section
/-! DEFINITION. Timer access and the key wait (45_timers_input.md). -/

namespace Sys2Proof.Machine

/-- `LD Vx, DT` (45_timers_input.md R114). -/
def execLdVDT (x : Reg) (s : State) : Result := .next (s.advance.setReg x s.DT).committed

/-- `LD Vx, K` (45_timers_input.md R115): WAITING with nothing committed while no key is pressed, else the
lowest-numbered pressed key (log 18). -/
def execLdVK (x : Reg) (s : State) : Result :=
  .next (match s.firstPressedKey with
    | none => s.waiting
    | some k => (s.advance.setReg x (BitVec.ofNat 8 k.val)).committed)

/-- `LD DT, Vx` (45_timers_input.md R116). -/
def execLdDT (x : Reg) (s : State) : Result := .next { s.advance with DT := s.reg x }.committed

/-- `LD ST, Vx` (45_timers_input.md R117). -/
def execLdST (x : Reg) (s : State) : Result := .next { s.advance with ST := s.reg x }.committed

end Sys2Proof.Machine
end

