-- ==== Sys2Proof/Machine/Transactions.lean ====
section
/-! DEFINITION. The fetch, the cycle (10_state.md R46), the host's transactions (R44) and which one comes next. -/

namespace Sys2Proof.Machine

/-! ## The cycle -/

/-- The address the fetch at `pc0` raises `OutOfBounds` with, if it does: `pc0` itself above 0xFFF, 0x1000 when only the
second byte is outside (20_memory.md R56; log 15). -/
def fetchFault (pc0 : Word) : Option Nat :=
  if 0xFFF < pc0.toNat then some pc0.toNat
  else if 0xFFF < pc0.toNat + 1 then some (pc0.toNat + 1)
  else none

/-- The big-endian word at `pc0` (20_memory.md R53). -/
def State.fetchWord (s : State) : Word := wordOfBytes (s.mem.read s.pc.toNat) (s.mem.read (s.pc.toNat + 1))

/-- Fetch, decode, execute, in that order of faults (10_state.md R46, 60_exceptions.md R129). -/
def runInstruction (s : State) : Result :=
  match fetchFault s.pc with
  | some a => .next (s.raise (.outOfBounds a))
  | none =>
    match decode s.fetchWord with
    | none => .next (s.raise (.decodeError s.fetchWord))
    | some i => exec i s

/-- The start of a `Cycle(keys, rnd)`: the inputs are sampled and constant during it, and `Load` is accepted no more
(10_state.md R36, 70_reset_and_hazards.md R148). -/
def State.sample (s : State) (keys : BitVec 16) (rnd : Byte) : State :=
  { s with keys := keys, rnd := rnd, loadOpen := false }

/-- `Cycle`, its inputs sampled. In HALTED it commits nothing and returns the latched FAULT again (60_exceptions.md R128). -/
def runCycle (s : State) : Result :=
  match s.runState with
  | .halted r => .next { s with status := some (.fault r) }
  | .running => runInstruction s

/-! ## The other transactions -/

/-- One timer's part of `Tick`: decrement, saturating at 0 (60_exceptions.md R135). -/
def countDown (t : Byte) : Byte := if 0 < t.toNat then t - 1 else t

/-- `Tick()` decrements both timers, in HALTED too (60_exceptions.md R135, R128). -/
def State.tick (s : State) : State := { s with DT := countDown s.DT, ST := countDown s.ST }

/-- `Reset()` (70_reset_and_hazards.md R143, R144): every item of state at its reset value; the machine keeps its font, and
the host its schedule (log 27). -/
def State.resetBlock (s : State) : State :=
  { State.reset with mem := ⟨s.mem.font, []⟩, host := s.host, draws := s.draws }

/-- `Load(rom)` in its slot (70_reset_and_hazards.md R146, R147). -/
def State.loadRom (s : State) (rom : List Byte) : State :=
  if 3584 < rom.length then
    { s with loadOpen := false }.halt ⟨.loadError rom.length, 0x200⟩
  else
    { s with loadOpen := false, mem := s.mem.writeList 0x200 rom }.committed

/-- One transaction of the host (10_state.md R44). A `Load` outside its slot is refused (70_reset_and_hazards.md R148). -/
def transact (t : Transaction) (s : State) : Result :=
  match t with
  | .reset => .next s.resetBlock
  | .load rom => if s.loadOpen then .next (s.loadRom rom) else .refused .loadOutsideSlot
  | .cycle keys rnd => runCycle (s.sample keys rnd)
  | .tick => .next s.tick

/-! ## Which transaction comes next -/

/-- The transaction the host issues once its listed schedule is exhausted: a `Tick` or a `Cycle`, as a free value has it,
the `Cycle` with free inputs (60_exceptions.md R137; logs 1, 2). -/
def State.freeTransaction (s : State) : Transaction :=
  if Config.freeTick s.draws then .tick else .cycle (Config.freeKeys s.draws) (Config.freeRnd s.draws)

/-- The next transaction of the schedule, a free one beyond its listed part (60_exceptions.md R137). -/
def State.nextTransaction (s : State) : Transaction :=
  match s.host with
  | [] => s.freeTransaction
  | t :: _ => t

/-- The state once that transaction is taken off the schedule. -/
def State.afterTaking (s : State) : State :=
  match s.host with
  | [] => { s with draws := s.draws + 1 }
  | _ :: rest => { s with host := rest }

/-- The transaction is a `Cycle`. -/
def Transaction.isCycle : Transaction → Bool
  | .cycle _ _ => true
  | _ => false

/-- `s` with a `Cycle` as its next transaction: what the schedule lists before its first `Cycle` is taken off; where it
lists none, one with free inputs is listed, which takes their number from the counter (logs 2, 3). -/
def State.cycleNext (s : State) : State :=
  match s.host.dropWhile (fun t => !t.isCycle) with
  | [] => { s with host := [.cycle (Config.freeKeys s.draws) (Config.freeRnd s.draws)], draws := s.draws + 1 }
  | t :: rest => { s with host := t :: rest }

/-! ## Outputs (10_state.md R44) -/

/-- `sound_on = (ST != 0)` (60_exceptions.md R138). -/
def State.soundOn (s : State) : Bool := s.ST ≠ 0

/-- The fault record, valid only in HALTED (10_state.md R38). -/
def State.faultRecord (s : State) : Option FaultRecord :=
  match s.runState with
  | .running => none
  | .halted r => some r

/-- `run_state = HALTED` (10_state.md R38). -/
def State.isHalted (s : State) : Bool := s.faultRecord.isSome

end Sys2Proof.Machine
end

