-- ==== Sys2Proof/Machine/Step.lean ====
section
/-! DEFINITION. One step of the machine: one transaction of the host; and an instruction word put where the next step
fetches. -/

namespace Sys2Proof.Machine

/-- One transaction, atomic (10_state.md R44): the next one of the host's schedule (log 1). -/
def step (s : State) : Host.Outcome State Fault Refusal := transact s.nextTransaction s.afterTaking

/-- `s` with the word of an opcode-table row where the next step fetches it: stored at pc, high byte first. It stands for
the host's `Load` (log 3). So that the very next step runs it from any state, the next transaction is a `Cycle`, the block
is running, and pc is a fetchable address (0x200 where it was not); on a running state with a fetchable pc and a `Cycle`
next on its list these change nothing. -/
def State.withFetchWord (s : State) (nbits w : Nat) : State :=
  { s.cycleNext with
    pc := if s.pc.toNat ≤ 0xFFE then s.pc else 0x200
    mem := s.mem.writeList (if s.pc.toNat ≤ 0xFFE then s.pc else 0x200).toNat (bytesOfWord (tableWord nbits w))
    runState := .running }

end Sys2Proof.Machine
end

