-- ==== Sys2Proof/Laws/Decode.lean ====
section
/-! SUPPORT. The bits of a word written in each format, its fields, the word its fields determine, and its bytes. -/

namespace Sys2Proof

/-! ### Bits of each format -/

theorem getLsbD_formatNNN (op : BitVec 4) (nnn : BitVec 12) (i : Nat) :
    (formatNNN op nnn).getLsbD i = if i < 12 then nnn.getLsbD i else op.getLsbD (i - 12) := by
  have h := BitVec.getLsbD_append (x := op) (y := nnn) (i := i)
  rw [← h]; rfl

theorem getLsbD_formatXKK (op : BitVec 4) (x : Reg) (kk : Byte) (i : Nat) :
    (formatXKK op x kk).getLsbD i =
      if i < 8 then kk.getLsbD i else if i < 12 then (BitVec.ofFin (w := 4) x).getLsbD (i - 8)
      else op.getLsbD (i - 12) := by
  have e : (formatXKK op x kk).getLsbD i = (op ++ BitVec.ofFin (w := 4) x ++ kk).getLsbD i := rfl
  rw [e, BitVec.getLsbD_append, BitVec.getLsbD_append, show i - 8 - 4 = i - 12 by omega]
  split_ifs <;> first | rfl | omega

theorem getLsbD_formatXYN (op : BitVec 4) (x y : Reg) (n : BitVec 4) (i : Nat) :
    (formatXYN op x y n).getLsbD i =
      if i < 4 then n.getLsbD i else if i < 8 then (BitVec.ofFin (w := 4) y).getLsbD (i - 4)
      else if i < 12 then (BitVec.ofFin (w := 4) x).getLsbD (i - 8) else op.getLsbD (i - 12) := by
  have e : (formatXYN op x y n).getLsbD i =
    (op ++ BitVec.ofFin (w := 4) x ++ BitVec.ofFin (w := 4) y ++ n).getLsbD i := rfl
  rw [e, BitVec.getLsbD_append, BitVec.getLsbD_append, BitVec.getLsbD_append,
    show i - 4 - 4 - 4 = i - 12 by omega, show i - 4 - 4 = i - 8 by omega]
  split_ifs <;> first | rfl | omega

/-! ### Fields of each format -/

theorem opField_of_bits {w : Word} {op : BitVec 4} (h : ∀ i, i < 4 → w.getLsbD (12 + i) = op.getLsbD i) :
    opField w = op := by
  ext i hi; simpa [opField, hi] using h i hi

@[simp] theorem opField_formatNNN (op : BitVec 4) (nnn : BitVec 12) : opField (formatNNN op nnn) = op :=
  opField_of_bits fun i _ => by simp [getLsbD_formatNNN]

@[simp] theorem opField_formatXKK (op : BitVec 4) (x : Reg) (kk : Byte) : opField (formatXKK op x kk) = op :=
  opField_of_bits fun i _ => by simp [getLsbD_formatXKK, show ¬ 12 + i < 8 by omega]

@[simp] theorem opField_formatXYN (op : BitVec 4) (x y : Reg) (n : BitVec 4) : opField (formatXYN op x y n) = op :=
  opField_of_bits fun i _ => by
    simp [getLsbD_formatXYN, show ¬ 12 + i < 8 by omega, show ¬ 12 + i < 4 by omega]

@[simp] theorem nnnField_formatNNN (op : BitVec 4) (nnn : BitVec 12) : nnnField (formatNNN op nnn) = nnn := by
  unfold nnnField; ext i hi; simp [getLsbD_formatNNN, hi]

@[simp] theorem kkField_formatXKK (op : BitVec 4) (x : Reg) (kk : Byte) : kkField (formatXKK op x kk) = kk := by
  unfold kkField; ext i hi; simp [getLsbD_formatXKK, hi]

theorem xField_of_bits {w : Word} {x : Reg}
    (h : ∀ i, i < 4 → w.getLsbD (8 + i) = (BitVec.ofFin (w := 4) x).getLsbD i) : xField w = x := by
  have e : w.extractLsb' 8 4 = BitVec.ofFin (w := 4) x := by
    ext i hi; simpa [hi] using h i hi
  unfold xField; rw [e]

theorem yField_of_bits {w : Word} {y : Reg}
    (h : ∀ i, i < 4 → w.getLsbD (4 + i) = (BitVec.ofFin (w := 4) y).getLsbD i) : yField w = y := by
  have e : w.extractLsb' 4 4 = BitVec.ofFin (w := 4) y := by
    ext i hi; simpa [hi] using h i hi
  unfold yField; rw [e]

@[simp] theorem xField_formatXKK (op : BitVec 4) (x : Reg) (kk : Byte) : xField (formatXKK op x kk) = x :=
  xField_of_bits fun i hi => by
    rw [getLsbD_formatXKK, if_neg (by omega), if_pos (by omega), Nat.add_sub_cancel_left]

@[simp] theorem xField_formatXYN (op : BitVec 4) (x y : Reg) (n : BitVec 4) : xField (formatXYN op x y n) = x :=
  xField_of_bits fun i hi => by
    rw [getLsbD_formatXYN, if_neg (by omega), if_neg (by omega), if_pos (by omega), Nat.add_sub_cancel_left]

@[simp] theorem yField_formatXYN (op : BitVec 4) (x y : Reg) (n : BitVec 4) : yField (formatXYN op x y n) = y :=
  yField_of_bits fun i hi => by
    rw [getLsbD_formatXYN, if_neg (by omega), if_pos (by omega), Nat.add_sub_cancel_left]

@[simp] theorem nField_formatXYN (op : BitVec 4) (x y : Reg) (n : BitVec 4) : nField (formatXYN op x y n) = n := by
  unfold nField; ext i hi; simp [getLsbD_formatXYN, hi]

/-! ### A word is determined by its fields -/

theorem ofFin_xField (w : Word) : BitVec.ofFin (w := 4) (xField w) = w.extractLsb' 8 4 := rfl

theorem ofFin_yField (w : Word) : BitVec.ofFin (w := 4) (yField w) = w.extractLsb' 4 4 := rfl

theorem word_eq_formatNNN (w : Word) : w = formatNNN (opField w) (nnnField w) := by
  apply BitVec.eq_of_getLsbD_eq; intro i hi
  rw [getLsbD_formatNNN]; split
  · simp [nnnField, *]
  · simp [opField, show i - 12 < 4 by omega, show 12 + (i - 12) = i by omega]

theorem word_eq_formatXKK (w : Word) : w = formatXKK (opField w) (xField w) (kkField w) := by
  apply BitVec.eq_of_getLsbD_eq; intro i hi
  rw [getLsbD_formatXKK]; split_ifs
  · simp [kkField, *]
  · simp [ofFin_xField, show i - 8 < 4 by omega, show 8 + (i - 8) = i by omega]
  · simp [opField, show i - 12 < 4 by omega, show 12 + (i - 12) = i by omega]

theorem word_eq_formatXYN (w : Word) : w = formatXYN (opField w) (xField w) (yField w) (nField w) := by
  apply BitVec.eq_of_getLsbD_eq; intro i hi
  rw [getLsbD_formatXYN]; split_ifs
  · simp [nField, *]
  · simp [ofFin_yField, show i - 4 < 4 by omega, show 4 + (i - 4) = i by omega]
  · simp [ofFin_xField, show i - 8 < 4 by omega, show 8 + (i - 8) = i by omega]
  · simp [opField, show i - 12 < 4 by omega, show 12 + (i - 12) = i by omega]

/-! ### Bytes of a word -/

theorem wordOfBytes_bytes (w : Word) : wordOfBytes (w.extractLsb' 8 8) (w.extractLsb' 0 8) = w := by
  apply BitVec.eq_of_getLsbD_eq; intro i hi
  have h := BitVec.getLsbD_append (x := w.extractLsb' 8 8) (y := w.extractLsb' 0 8) (i := i)
  have e : (wordOfBytes (w.extractLsb' 8 8) (w.extractLsb' 0 8)).getLsbD i
    = (w.extractLsb' 8 8 ++ w.extractLsb' 0 8).getLsbD i := rfl
  rw [e, h]; split
  · simp [*]
  · simp [show i - 8 < 8 by omega, show 8 + (i - 8) = i by omega]

/-- The decoder reads from the bytes of a word, in memory's order, what decode reads from the word. -/
theorem decodeBytes_bytesOfWord (w : Word) : (decodeBytes (bytesOfWord w)).toOption = decode w := by
  simp only [bytesOfWord, decodeBytes, wordOfBytes_bytes]
  cases decode w <;> rfl

/-- A host's numbering of a 16-bit word is the word. -/
theorem decodeTableWord_16 (w : Word) : decodeTableWord 16 w.toNat = decode w := by
  have h : tableWord 16 w.toNat = w := by
    apply BitVec.eq_of_toNat_eq
    simp only [tableWord, BitVec.toNat_ofNat]
    have := w.isLt
    omega
  rw [decodeTableWord, h, decodeBytes_bytesOfWord]

end Sys2Proof
end

