-- ==== Sys2Proof/Laws/Memory.lean ====
section
/-! SUPPORT. What memory does: a read after a write, the bytes a list of writes leaves, and the canonical form, which
every write keeps. -/

namespace Sys2Proof.Machine

@[simp] theorem Memory.write_font (m : Memory) (a : Nat) (b : Byte) : (m.write a b).font = m.font := by
  unfold Memory.write; split <;> rfl

@[simp] theorem Memory.writeList_font (m : Memory) (a : Nat) (bs : List Byte) :
    (m.writeList a bs).font = m.font := by
  induction bs generalizing m a with
  | nil => rfl
  | cons b bs ih => simp [Memory.writeList, ih]

@[simp] theorem Memory.write_background (m : Memory) (a p : Nat) (b : Byte) :
    (m.write a b).background p = m.background p := by simp [Memory.background]

/-! ### Cells -/

theorem Memory.lookup_insertCell (a p : Nat) (b : Byte) (cells : List Host.Cell) :
    Memory.lookup p (Memory.insertCell a b cells) = if p = a then some b else Memory.lookup p cells := by
  induction cells with
  | nil =>
    by_cases h : p = a
    · simp [Memory.insertCell, Memory.lookup, h]
    · simp [Memory.insertCell, Memory.lookup, h, Ne.symm h]
  | cons c rest ih =>
    unfold Memory.insertCell
    split
    · by_cases h : p = a
      · simp [Memory.lookup, h]
      · simp [Memory.lookup, h, Ne.symm h]
    · split
      · rename_i _ h
        by_cases h' : p = a
        · simp [Memory.lookup, h']
        · simp [Memory.lookup, h', Ne.symm h', ← h]
      · rename_i h1 h2
        by_cases h' : c.1 = p
        · have hp : p ≠ a := fun e => h2 (by omega)
          simp [Memory.lookup, h', hp]
        · simp [Memory.lookup, h', ih]

theorem Memory.lookup_eraseCell (a p : Nat) (cells : List Host.Cell) :
    Memory.lookup p (Memory.eraseCell a cells) = if p = a then none else Memory.lookup p cells := by
  induction cells with
  | nil => simp [Memory.eraseCell, Memory.lookup]
  | cons c rest ih =>
    simp only [Memory.eraseCell, ne_eq, decide_not] at ih
    simp only [Memory.eraseCell, ne_eq, decide_not, List.filter_cons]
    by_cases hc : c.1 = a
    · by_cases hp : p = a
      · subst hp; simpa [hc] using ih
      · have h1 : ¬ a = p := fun e => hp e.symm
        simp [hc, hp, ih, Memory.lookup, h1]
    · by_cases hp : c.1 = p
      · have h1 : ¬ p = a := fun e => hc (hp.trans e)
        simp [Memory.lookup, hp, h1]
      · simp [hc, hp, ih, Memory.lookup]

/-! ### A read after a write -/

theorem Memory.read_write (m : Memory) (a p : Nat) (b : Byte) :
    (m.write a b).read p = if p = a then b else m.read p := by
  have hb := Memory.write_background m a p b
  unfold Memory.read
  rw [hb]
  unfold Memory.write
  split
  · rename_i h
    by_cases hp : p = a
    · subst hp; simp [Memory.lookup_eraseCell, h]
    · simp [Memory.lookup_eraseCell, hp]
  · by_cases hp : p = a <;> simp [Memory.lookup_insertCell, hp]

/-- What a byte reads as after bytes are written from `a` on: the byte written there, if one was. -/
theorem Memory.read_writeList (m : Memory) (a p : Nat) (bs : List Byte) :
    (m.writeList a bs).read p = if a ≤ p then (bs[p - a]?).getD (m.read p) else m.read p := by
  induction bs generalizing m a with
  | nil => simp [Memory.writeList]
  | cons b bs ih =>
    rw [Memory.writeList, ih, Memory.read_write]
    by_cases h1 : a + 1 ≤ p
    · have h2 : p ≠ a := by omega
      have h3 : a ≤ p := by omega
      have h4 : p - a = (p - (a + 1)) + 1 := by omega
      rw [if_pos h1, if_neg h2, if_pos h3, h4, List.getElem?_cons_succ]
    · by_cases h2 : p = a
      · subst h2; simp
      · have h3 : ¬ a ≤ p := by omega
        simp [h1, h2, h3]

theorem Memory.read_writeList_outside (m : Memory) {a p : Nat} (bs : List Byte)
    (h : p < a ∨ a + bs.length ≤ p) : (m.writeList a bs).read p = m.read p := by
  rw [Memory.read_writeList]
  split
  · rw [List.getElem?_eq_none (by omega)]; rfl
  · rfl

theorem Memory.read_writeList_inside (m : Memory) {a k : Nat} (bs : List Byte) (h : k < bs.length) :
    (m.writeList a bs).read (a + k) = bs[k] := by
  rw [Memory.read_writeList, if_pos (by omega)]
  simp [h]

@[simp] theorem Memory.readList_length (m : Memory) (a n : Nat) : (m.readList a n).length = n := by
  simp [Memory.readList]

theorem Memory.readList_getElem (m : Memory) {a n k : Nat} (h : k < (m.readList a n).length) :
    (m.readList a n)[k] = m.read (a + k) := by simp [Memory.readList]

/-! ### The canonical form -/

theorem Memory.mem_insertCell {a : Nat} {b : Byte} {cells : List Host.Cell} {c : Host.Cell}
    (h : c ∈ Memory.insertCell a b cells) : c = (a, b) ∨ c ∈ cells := by
  induction cells with
  | nil => simpa [Memory.insertCell] using h
  | cons d rest ih =>
    unfold Memory.insertCell at h
    split at h
    · simpa using h
    · split at h
      · rcases List.mem_cons.mp h with h | h
        · exact .inl h
        · exact .inr (List.mem_cons_of_mem _ h)
      · rcases List.mem_cons.mp h with h | h
        · exact .inr (h ▸ List.mem_cons_self)
        · exact (ih h).imp_right (List.mem_cons_of_mem _)

theorem Memory.insertCell_rising (a : Nat) (b : Byte) {cells : List Host.Cell}
    (h : cells.Pairwise (fun c d => c.1 < d.1)) :
    (Memory.insertCell a b cells).Pairwise (fun c d => c.1 < d.1) := by
  induction cells with
  | nil => simp [Memory.insertCell]
  | cons d rest ih =>
    have hd := List.pairwise_cons.mp h
    unfold Memory.insertCell
    split
    · rename_i hlt
      refine List.pairwise_cons.mpr ⟨fun c hc => ?_, h⟩
      rcases List.mem_cons.mp hc with rfl | hc
      · exact hlt
      · exact lt_trans hlt (hd.1 c hc)
    · split
      · rename_i _ heq
        exact List.pairwise_cons.mpr ⟨fun c hc => heq ▸ hd.1 c hc, hd.2⟩
      · refine List.pairwise_cons.mpr ⟨fun c hc => ?_, ih hd.2⟩
        rcases Memory.mem_insertCell hc with rfl | hc
        · show d.1 < a; omega
        · exact hd.1 c hc

/-- A write of an address of memory keeps the canonical form. -/
theorem Memory.write_wf {m : Memory} (h : m.wf) {a : Nat} (ha : a ≤ 0xFFF) (b : Byte) : (m.write a b).wf := by
  unfold Memory.wf at h ⊢
  simp only [Memory.write_background]
  unfold Memory.write
  split
  · exact ⟨h.1.filter _, fun c hc => h.2 c (List.mem_filter.mp hc).1⟩
  · rename_i hb
    refine ⟨Memory.insertCell_rising a b h.1, fun c hc => ?_⟩
    rcases Memory.mem_insertCell hc with rfl | hc
    · exact ⟨ha, hb⟩
    · exact h.2 c hc

/-- A list of writes inside memory keeps the canonical form. -/
theorem Memory.writeList_wf {m : Memory} (h : m.wf) {a : Nat} {bs : List Byte} (ha : a + bs.length ≤ 0x1000) :
    (m.writeList a bs).wf := by
  induction bs generalizing m a with
  | nil => exact h
  | cons b bs ih =>
    simp only [List.length_cons] at ha
    exact ih (Memory.write_wf h (by omega) b) (by omega)

/-- Memory as `Reset` leaves it, whatever its font, is canonical. -/
theorem Memory.empty_wf (font : Font) : Memory.wf ⟨font, []⟩ := ⟨.nil, by simp⟩

theorem State.reset_memory_wf : State.reset.mem.wf := Memory.empty_wf _

end Sys2Proof.Machine
end

