-- ==== Sys2Proof/Laws/State.lean ====
section
/-! SUPPORT. One lemma per field per update of State, true by rfl, and the reads of a register after a register write. -/

namespace Sys2Proof.Machine

/-! ### setReg -/

@[simp] theorem State.setReg_V (s : State) (x : Reg) (b : Byte) : (s.setReg x b).V = s.V.set x b := rfl
@[simp] theorem State.setReg_I (s : State) (x : Reg) (b : Byte) : (s.setReg x b).I = s.I := rfl
@[simp] theorem State.setReg_pc (s : State) (x : Reg) (b : Byte) : (s.setReg x b).pc = s.pc := rfl
@[simp] theorem State.setReg_sp (s : State) (x : Reg) (b : Byte) : (s.setReg x b).sp = s.sp := rfl
@[simp] theorem State.setReg_stack (s : State) (x : Reg) (b : Byte) : (s.setReg x b).stack = s.stack := rfl
@[simp] theorem State.setReg_DT (s : State) (x : Reg) (b : Byte) : (s.setReg x b).DT = s.DT := rfl
@[simp] theorem State.setReg_ST (s : State) (x : Reg) (b : Byte) : (s.setReg x b).ST = s.ST := rfl
@[simp] theorem State.setReg_fb (s : State) (x : Reg) (b : Byte) : (s.setReg x b).fb = s.fb := rfl
@[simp] theorem State.setReg_runState (s : State) (x : Reg) (b : Byte) : (s.setReg x b).runState = s.runState := rfl
@[simp] theorem State.setReg_mem (s : State) (x : Reg) (b : Byte) : (s.setReg x b).mem = s.mem := rfl
@[simp] theorem State.setReg_keys (s : State) (x : Reg) (b : Byte) : (s.setReg x b).keys = s.keys := rfl
@[simp] theorem State.setReg_rnd (s : State) (x : Reg) (b : Byte) : (s.setReg x b).rnd = s.rnd := rfl
@[simp] theorem State.setReg_loadOpen (s : State) (x : Reg) (b : Byte) : (s.setReg x b).loadOpen = s.loadOpen := rfl
@[simp] theorem State.setReg_status (s : State) (x : Reg) (b : Byte) : (s.setReg x b).status = s.status := rfl
@[simp] theorem State.setReg_host (s : State) (x : Reg) (b : Byte) : (s.setReg x b).host = s.host := rfl
@[simp] theorem State.setReg_draws (s : State) (x : Reg) (b : Byte) : (s.setReg x b).draws = s.draws := rfl

/-! ### advance -/

@[simp] theorem State.advance_V (s : State) : (s.advance).V = s.V := rfl
@[simp] theorem State.advance_I (s : State) : (s.advance).I = s.I := rfl
@[simp] theorem State.advance_pc (s : State) : (s.advance).pc = s.pc + 2 := rfl
@[simp] theorem State.advance_sp (s : State) : (s.advance).sp = s.sp := rfl
@[simp] theorem State.advance_stack (s : State) : (s.advance).stack = s.stack := rfl
@[simp] theorem State.advance_DT (s : State) : (s.advance).DT = s.DT := rfl
@[simp] theorem State.advance_ST (s : State) : (s.advance).ST = s.ST := rfl
@[simp] theorem State.advance_fb (s : State) : (s.advance).fb = s.fb := rfl
@[simp] theorem State.advance_runState (s : State) : (s.advance).runState = s.runState := rfl
@[simp] theorem State.advance_mem (s : State) : (s.advance).mem = s.mem := rfl
@[simp] theorem State.advance_keys (s : State) : (s.advance).keys = s.keys := rfl
@[simp] theorem State.advance_rnd (s : State) : (s.advance).rnd = s.rnd := rfl
@[simp] theorem State.advance_loadOpen (s : State) : (s.advance).loadOpen = s.loadOpen := rfl
@[simp] theorem State.advance_status (s : State) : (s.advance).status = s.status := rfl
@[simp] theorem State.advance_host (s : State) : (s.advance).host = s.host := rfl
@[simp] theorem State.advance_draws (s : State) : (s.advance).draws = s.draws := rfl
@[simp] theorem State.advance_reg (s : State) (q : Reg) : (s.advance).reg q = s.reg q := rfl

/-! ### jumpTo -/

@[simp] theorem State.jumpTo_V (s : State) (p : Word) : (s.jumpTo p).V = s.V := rfl
@[simp] theorem State.jumpTo_I (s : State) (p : Word) : (s.jumpTo p).I = s.I := rfl
@[simp] theorem State.jumpTo_pc (s : State) (p : Word) : (s.jumpTo p).pc = p := rfl
@[simp] theorem State.jumpTo_sp (s : State) (p : Word) : (s.jumpTo p).sp = s.sp := rfl
@[simp] theorem State.jumpTo_stack (s : State) (p : Word) : (s.jumpTo p).stack = s.stack := rfl
@[simp] theorem State.jumpTo_DT (s : State) (p : Word) : (s.jumpTo p).DT = s.DT := rfl
@[simp] theorem State.jumpTo_ST (s : State) (p : Word) : (s.jumpTo p).ST = s.ST := rfl
@[simp] theorem State.jumpTo_fb (s : State) (p : Word) : (s.jumpTo p).fb = s.fb := rfl
@[simp] theorem State.jumpTo_runState (s : State) (p : Word) : (s.jumpTo p).runState = s.runState := rfl
@[simp] theorem State.jumpTo_mem (s : State) (p : Word) : (s.jumpTo p).mem = s.mem := rfl
@[simp] theorem State.jumpTo_keys (s : State) (p : Word) : (s.jumpTo p).keys = s.keys := rfl
@[simp] theorem State.jumpTo_rnd (s : State) (p : Word) : (s.jumpTo p).rnd = s.rnd := rfl
@[simp] theorem State.jumpTo_loadOpen (s : State) (p : Word) : (s.jumpTo p).loadOpen = s.loadOpen := rfl
@[simp] theorem State.jumpTo_status (s : State) (p : Word) : (s.jumpTo p).status = s.status := rfl
@[simp] theorem State.jumpTo_host (s : State) (p : Word) : (s.jumpTo p).host = s.host := rfl
@[simp] theorem State.jumpTo_draws (s : State) (p : Word) : (s.jumpTo p).draws = s.draws := rfl
@[simp] theorem State.jumpTo_reg (s : State) (p : Word) (q : Reg) : (s.jumpTo p).reg q = s.reg q := rfl

/-! ### committed -/

@[simp] theorem State.committed_V (s : State) : (s.committed).V = s.V := rfl
@[simp] theorem State.committed_I (s : State) : (s.committed).I = s.I := rfl
@[simp] theorem State.committed_pc (s : State) : (s.committed).pc = s.pc := rfl
@[simp] theorem State.committed_sp (s : State) : (s.committed).sp = s.sp := rfl
@[simp] theorem State.committed_stack (s : State) : (s.committed).stack = s.stack := rfl
@[simp] theorem State.committed_DT (s : State) : (s.committed).DT = s.DT := rfl
@[simp] theorem State.committed_ST (s : State) : (s.committed).ST = s.ST := rfl
@[simp] theorem State.committed_fb (s : State) : (s.committed).fb = s.fb := rfl
@[simp] theorem State.committed_runState (s : State) : (s.committed).runState = s.runState := rfl
@[simp] theorem State.committed_mem (s : State) : (s.committed).mem = s.mem := rfl
@[simp] theorem State.committed_keys (s : State) : (s.committed).keys = s.keys := rfl
@[simp] theorem State.committed_rnd (s : State) : (s.committed).rnd = s.rnd := rfl
@[simp] theorem State.committed_loadOpen (s : State) : (s.committed).loadOpen = s.loadOpen := rfl
@[simp] theorem State.committed_status (s : State) : (s.committed).status = some .ok := rfl
@[simp] theorem State.committed_host (s : State) : (s.committed).host = s.host := rfl
@[simp] theorem State.committed_draws (s : State) : (s.committed).draws = s.draws := rfl
@[simp] theorem State.committed_reg (s : State) (q : Reg) : (s.committed).reg q = s.reg q := rfl

/-! ### waiting -/

@[simp] theorem State.waiting_V (s : State) : (s.waiting).V = s.V := rfl
@[simp] theorem State.waiting_I (s : State) : (s.waiting).I = s.I := rfl
@[simp] theorem State.waiting_pc (s : State) : (s.waiting).pc = s.pc := rfl
@[simp] theorem State.waiting_sp (s : State) : (s.waiting).sp = s.sp := rfl
@[simp] theorem State.waiting_stack (s : State) : (s.waiting).stack = s.stack := rfl
@[simp] theorem State.waiting_DT (s : State) : (s.waiting).DT = s.DT := rfl
@[simp] theorem State.waiting_ST (s : State) : (s.waiting).ST = s.ST := rfl
@[simp] theorem State.waiting_fb (s : State) : (s.waiting).fb = s.fb := rfl
@[simp] theorem State.waiting_runState (s : State) : (s.waiting).runState = s.runState := rfl
@[simp] theorem State.waiting_mem (s : State) : (s.waiting).mem = s.mem := rfl
@[simp] theorem State.waiting_keys (s : State) : (s.waiting).keys = s.keys := rfl
@[simp] theorem State.waiting_rnd (s : State) : (s.waiting).rnd = s.rnd := rfl
@[simp] theorem State.waiting_loadOpen (s : State) : (s.waiting).loadOpen = s.loadOpen := rfl
@[simp] theorem State.waiting_status (s : State) : (s.waiting).status = some .waiting := rfl
@[simp] theorem State.waiting_host (s : State) : (s.waiting).host = s.host := rfl
@[simp] theorem State.waiting_draws (s : State) : (s.waiting).draws = s.draws := rfl
@[simp] theorem State.waiting_reg (s : State) (q : Reg) : (s.waiting).reg q = s.reg q := rfl

/-! ### halt -/

@[simp] theorem State.halt_V (s : State) (r : FaultRecord) : (s.halt r).V = s.V := rfl
@[simp] theorem State.halt_I (s : State) (r : FaultRecord) : (s.halt r).I = s.I := rfl
@[simp] theorem State.halt_pc (s : State) (r : FaultRecord) : (s.halt r).pc = s.pc := rfl
@[simp] theorem State.halt_sp (s : State) (r : FaultRecord) : (s.halt r).sp = s.sp := rfl
@[simp] theorem State.halt_stack (s : State) (r : FaultRecord) : (s.halt r).stack = s.stack := rfl
@[simp] theorem State.halt_DT (s : State) (r : FaultRecord) : (s.halt r).DT = s.DT := rfl
@[simp] theorem State.halt_ST (s : State) (r : FaultRecord) : (s.halt r).ST = s.ST := rfl
@[simp] theorem State.halt_fb (s : State) (r : FaultRecord) : (s.halt r).fb = s.fb := rfl
@[simp] theorem State.halt_runState (s : State) (r : FaultRecord) : (s.halt r).runState = .halted r := rfl
@[simp] theorem State.halt_mem (s : State) (r : FaultRecord) : (s.halt r).mem = s.mem := rfl
@[simp] theorem State.halt_keys (s : State) (r : FaultRecord) : (s.halt r).keys = s.keys := rfl
@[simp] theorem State.halt_rnd (s : State) (r : FaultRecord) : (s.halt r).rnd = s.rnd := rfl
@[simp] theorem State.halt_loadOpen (s : State) (r : FaultRecord) : (s.halt r).loadOpen = s.loadOpen := rfl
@[simp] theorem State.halt_status (s : State) (r : FaultRecord) : (s.halt r).status = some (.fault r) := rfl
@[simp] theorem State.halt_host (s : State) (r : FaultRecord) : (s.halt r).host = s.host := rfl
@[simp] theorem State.halt_draws (s : State) (r : FaultRecord) : (s.halt r).draws = s.draws := rfl
@[simp] theorem State.halt_reg (s : State) (r : FaultRecord) (q : Reg) : (s.halt r).reg q = s.reg q := rfl

/-! ### raise -/

@[simp] theorem State.raise_V (s : State) (c : FaultCause) : (s.raise c).V = s.V := rfl
@[simp] theorem State.raise_I (s : State) (c : FaultCause) : (s.raise c).I = s.I := rfl
@[simp] theorem State.raise_pc (s : State) (c : FaultCause) : (s.raise c).pc = s.pc := rfl
@[simp] theorem State.raise_sp (s : State) (c : FaultCause) : (s.raise c).sp = s.sp := rfl
@[simp] theorem State.raise_stack (s : State) (c : FaultCause) : (s.raise c).stack = s.stack := rfl
@[simp] theorem State.raise_DT (s : State) (c : FaultCause) : (s.raise c).DT = s.DT := rfl
@[simp] theorem State.raise_ST (s : State) (c : FaultCause) : (s.raise c).ST = s.ST := rfl
@[simp] theorem State.raise_fb (s : State) (c : FaultCause) : (s.raise c).fb = s.fb := rfl
@[simp] theorem State.raise_runState (s : State) (c : FaultCause) : (s.raise c).runState = .halted ⟨c, s.pc⟩ := rfl
@[simp] theorem State.raise_mem (s : State) (c : FaultCause) : (s.raise c).mem = s.mem := rfl
@[simp] theorem State.raise_keys (s : State) (c : FaultCause) : (s.raise c).keys = s.keys := rfl
@[simp] theorem State.raise_rnd (s : State) (c : FaultCause) : (s.raise c).rnd = s.rnd := rfl
@[simp] theorem State.raise_loadOpen (s : State) (c : FaultCause) : (s.raise c).loadOpen = s.loadOpen := rfl
@[simp] theorem State.raise_status (s : State) (c : FaultCause) : (s.raise c).status = some (.fault ⟨c, s.pc⟩) := rfl
@[simp] theorem State.raise_host (s : State) (c : FaultCause) : (s.raise c).host = s.host := rfl
@[simp] theorem State.raise_draws (s : State) (c : FaultCause) : (s.raise c).draws = s.draws := rfl
@[simp] theorem State.raise_reg (s : State) (c : FaultCause) (q : Reg) : (s.raise c).reg q = s.reg q := rfl

/-! ### sample -/

@[simp] theorem State.sample_V (s : State) (k : BitVec 16) (b : Byte) : (s.sample k b).V = s.V := rfl
@[simp] theorem State.sample_I (s : State) (k : BitVec 16) (b : Byte) : (s.sample k b).I = s.I := rfl
@[simp] theorem State.sample_pc (s : State) (k : BitVec 16) (b : Byte) : (s.sample k b).pc = s.pc := rfl
@[simp] theorem State.sample_sp (s : State) (k : BitVec 16) (b : Byte) : (s.sample k b).sp = s.sp := rfl
@[simp] theorem State.sample_stack (s : State) (k : BitVec 16) (b : Byte) : (s.sample k b).stack = s.stack := rfl
@[simp] theorem State.sample_DT (s : State) (k : BitVec 16) (b : Byte) : (s.sample k b).DT = s.DT := rfl
@[simp] theorem State.sample_ST (s : State) (k : BitVec 16) (b : Byte) : (s.sample k b).ST = s.ST := rfl
@[simp] theorem State.sample_fb (s : State) (k : BitVec 16) (b : Byte) : (s.sample k b).fb = s.fb := rfl
@[simp] theorem State.sample_runState (s : State) (k : BitVec 16) (b : Byte) : (s.sample k b).runState = s.runState := rfl
@[simp] theorem State.sample_mem (s : State) (k : BitVec 16) (b : Byte) : (s.sample k b).mem = s.mem := rfl
@[simp] theorem State.sample_keys (s : State) (k : BitVec 16) (b : Byte) : (s.sample k b).keys = k := rfl
@[simp] theorem State.sample_rnd (s : State) (k : BitVec 16) (b : Byte) : (s.sample k b).rnd = b := rfl
@[simp] theorem State.sample_loadOpen (s : State) (k : BitVec 16) (b : Byte) : (s.sample k b).loadOpen = false := rfl
@[simp] theorem State.sample_status (s : State) (k : BitVec 16) (b : Byte) : (s.sample k b).status = s.status := rfl
@[simp] theorem State.sample_host (s : State) (k : BitVec 16) (b : Byte) : (s.sample k b).host = s.host := rfl
@[simp] theorem State.sample_draws (s : State) (k : BitVec 16) (b : Byte) : (s.sample k b).draws = s.draws := rfl
@[simp] theorem State.sample_reg (s : State) (k : BitVec 16) (b : Byte) (q : Reg) : (s.sample k b).reg q = s.reg q := rfl

/-! ### tick -/

@[simp] theorem State.tick_V (s : State) : (s.tick).V = s.V := rfl
@[simp] theorem State.tick_I (s : State) : (s.tick).I = s.I := rfl
@[simp] theorem State.tick_pc (s : State) : (s.tick).pc = s.pc := rfl
@[simp] theorem State.tick_sp (s : State) : (s.tick).sp = s.sp := rfl
@[simp] theorem State.tick_stack (s : State) : (s.tick).stack = s.stack := rfl
@[simp] theorem State.tick_DT (s : State) : (s.tick).DT = countDown s.DT := rfl
@[simp] theorem State.tick_ST (s : State) : (s.tick).ST = countDown s.ST := rfl
@[simp] theorem State.tick_fb (s : State) : (s.tick).fb = s.fb := rfl
@[simp] theorem State.tick_runState (s : State) : (s.tick).runState = s.runState := rfl
@[simp] theorem State.tick_mem (s : State) : (s.tick).mem = s.mem := rfl
@[simp] theorem State.tick_keys (s : State) : (s.tick).keys = s.keys := rfl
@[simp] theorem State.tick_rnd (s : State) : (s.tick).rnd = s.rnd := rfl
@[simp] theorem State.tick_loadOpen (s : State) : (s.tick).loadOpen = s.loadOpen := rfl
@[simp] theorem State.tick_status (s : State) : (s.tick).status = s.status := rfl
@[simp] theorem State.tick_host (s : State) : (s.tick).host = s.host := rfl
@[simp] theorem State.tick_draws (s : State) : (s.tick).draws = s.draws := rfl
@[simp] theorem State.tick_reg (s : State) (q : Reg) : (s.tick).reg q = s.reg q := rfl

/-! ### setVF, skipIf -/

@[simp] theorem State.setVF_I (s : State) (b : Byte) : (s.setVF b).I = s.I := rfl
@[simp] theorem State.setVF_pc (s : State) (b : Byte) : (s.setVF b).pc = s.pc := rfl
@[simp] theorem State.setVF_sp (s : State) (b : Byte) : (s.setVF b).sp = s.sp := rfl
@[simp] theorem State.setVF_stack (s : State) (b : Byte) : (s.setVF b).stack = s.stack := rfl
@[simp] theorem State.setVF_DT (s : State) (b : Byte) : (s.setVF b).DT = s.DT := rfl
@[simp] theorem State.setVF_ST (s : State) (b : Byte) : (s.setVF b).ST = s.ST := rfl
@[simp] theorem State.setVF_fb (s : State) (b : Byte) : (s.setVF b).fb = s.fb := rfl
@[simp] theorem State.setVF_runState (s : State) (b : Byte) : (s.setVF b).runState = s.runState := rfl
@[simp] theorem State.setVF_mem (s : State) (b : Byte) : (s.setVF b).mem = s.mem := rfl
@[simp] theorem State.setVF_keys (s : State) (b : Byte) : (s.setVF b).keys = s.keys := rfl
@[simp] theorem State.setVF_rnd (s : State) (b : Byte) : (s.setVF b).rnd = s.rnd := rfl
@[simp] theorem State.setVF_loadOpen (s : State) (b : Byte) : (s.setVF b).loadOpen = s.loadOpen := rfl
@[simp] theorem State.setVF_status (s : State) (b : Byte) : (s.setVF b).status = s.status := rfl
@[simp] theorem State.setVF_host (s : State) (b : Byte) : (s.setVF b).host = s.host := rfl
@[simp] theorem State.setVF_draws (s : State) (b : Byte) : (s.setVF b).draws = s.draws := rfl

@[simp] theorem State.skipIf_V (s : State) (c : Bool) : (s.skipIf c).V = s.V := by cases c <;> rfl
@[simp] theorem State.skipIf_I (s : State) (c : Bool) : (s.skipIf c).I = s.I := by cases c <;> rfl
@[simp] theorem State.skipIf_sp (s : State) (c : Bool) : (s.skipIf c).sp = s.sp := by cases c <;> rfl
@[simp] theorem State.skipIf_stack (s : State) (c : Bool) : (s.skipIf c).stack = s.stack := by cases c <;> rfl
@[simp] theorem State.skipIf_DT (s : State) (c : Bool) : (s.skipIf c).DT = s.DT := by cases c <;> rfl
@[simp] theorem State.skipIf_ST (s : State) (c : Bool) : (s.skipIf c).ST = s.ST := by cases c <;> rfl
@[simp] theorem State.skipIf_fb (s : State) (c : Bool) : (s.skipIf c).fb = s.fb := by cases c <;> rfl
@[simp] theorem State.skipIf_runState (s : State) (c : Bool) : (s.skipIf c).runState = s.runState := by cases c <;> rfl
@[simp] theorem State.skipIf_mem (s : State) (c : Bool) : (s.skipIf c).mem = s.mem := by cases c <;> rfl
@[simp] theorem State.skipIf_keys (s : State) (c : Bool) : (s.skipIf c).keys = s.keys := by cases c <;> rfl
@[simp] theorem State.skipIf_rnd (s : State) (c : Bool) : (s.skipIf c).rnd = s.rnd := by cases c <;> rfl
@[simp] theorem State.skipIf_loadOpen (s : State) (c : Bool) : (s.skipIf c).loadOpen = s.loadOpen := by cases c <;> rfl
@[simp] theorem State.skipIf_status (s : State) (c : Bool) : (s.skipIf c).status = s.status := by cases c <;> rfl
@[simp] theorem State.skipIf_host (s : State) (c : Bool) : (s.skipIf c).host = s.host := by cases c <;> rfl
@[simp] theorem State.skipIf_draws (s : State) (c : Bool) : (s.skipIf c).draws = s.draws := by cases c <;> rfl
@[simp] theorem State.skipIf_reg (s : State) (c : Bool) (r : Reg) : (s.skipIf c).reg r = s.reg r := by cases c <;> rfl
@[simp] theorem State.skipIf_pc (s : State) (c : Bool) : (s.skipIf c).pc = if c then s.pc + 2 else s.pc := by cases c <;> rfl

/-! ### Reads of a register after a write -/

theorem State.reg_setReg (s : State) (x r : Reg) (b : Byte) :
    (s.setReg x b).reg r = if r = x then b else s.reg r := by
  by_cases h : r = x
  · subst h; simp [State.reg]
  · have h' : x.val ≠ r.val := fun e => h (Fin.ext e.symm)
    simp [State.reg, h, h']

@[simp] theorem State.reg_setReg_same (s : State) (x : Reg) (b : Byte) : (s.setReg x b).reg x = b := by
  simp [State.reg_setReg]

theorem State.reg_setReg_of_ne (s : State) {x r : Reg} (b : Byte) (h : r ≠ x) :
    (s.setReg x b).reg r = s.reg r := by simp [State.reg_setReg, h]

theorem State.reg_setVF (s : State) (r : Reg) (b : Byte) :
    (s.setVF b).reg r = if r = Reg.vf then b else s.reg r := State.reg_setReg s Reg.vf r b

/-! ### setRegsFrom leaves every field but V -/

@[simp] theorem State.setRegsFrom_I (s : State) (k : Nat) (bs : List Byte) : (s.setRegsFrom k bs).I = s.I := by
  induction bs generalizing s k with
  | nil => rfl
  | cons b bs ih => rw [State.setRegsFrom, ih]; rfl

@[simp] theorem State.setRegsFrom_pc (s : State) (k : Nat) (bs : List Byte) : (s.setRegsFrom k bs).pc = s.pc := by
  induction bs generalizing s k with
  | nil => rfl
  | cons b bs ih => rw [State.setRegsFrom, ih]; rfl

@[simp] theorem State.setRegsFrom_sp (s : State) (k : Nat) (bs : List Byte) : (s.setRegsFrom k bs).sp = s.sp := by
  induction bs generalizing s k with
  | nil => rfl
  | cons b bs ih => rw [State.setRegsFrom, ih]; rfl

@[simp] theorem State.setRegsFrom_stack (s : State) (k : Nat) (bs : List Byte) : (s.setRegsFrom k bs).stack = s.stack := by
  induction bs generalizing s k with
  | nil => rfl
  | cons b bs ih => rw [State.setRegsFrom, ih]; rfl

@[simp] theorem State.setRegsFrom_DT (s : State) (k : Nat) (bs : List Byte) : (s.setRegsFrom k bs).DT = s.DT := by
  induction bs generalizing s k with
  | nil => rfl
  | cons b bs ih => rw [State.setRegsFrom, ih]; rfl

@[simp] theorem State.setRegsFrom_ST (s : State) (k : Nat) (bs : List Byte) : (s.setRegsFrom k bs).ST = s.ST := by
  induction bs generalizing s k with
  | nil => rfl
  | cons b bs ih => rw [State.setRegsFrom, ih]; rfl

@[simp] theorem State.setRegsFrom_fb (s : State) (k : Nat) (bs : List Byte) : (s.setRegsFrom k bs).fb = s.fb := by
  induction bs generalizing s k with
  | nil => rfl
  | cons b bs ih => rw [State.setRegsFrom, ih]; rfl

@[simp] theorem State.setRegsFrom_runState (s : State) (k : Nat) (bs : List Byte) : (s.setRegsFrom k bs).runState = s.runState := by
  induction bs generalizing s k with
  | nil => rfl
  | cons b bs ih => rw [State.setRegsFrom, ih]; rfl

@[simp] theorem State.setRegsFrom_mem (s : State) (k : Nat) (bs : List Byte) : (s.setRegsFrom k bs).mem = s.mem := by
  induction bs generalizing s k with
  | nil => rfl
  | cons b bs ih => rw [State.setRegsFrom, ih]; rfl

@[simp] theorem State.setRegsFrom_keys (s : State) (k : Nat) (bs : List Byte) : (s.setRegsFrom k bs).keys = s.keys := by
  induction bs generalizing s k with
  | nil => rfl
  | cons b bs ih => rw [State.setRegsFrom, ih]; rfl

@[simp] theorem State.setRegsFrom_rnd (s : State) (k : Nat) (bs : List Byte) : (s.setRegsFrom k bs).rnd = s.rnd := by
  induction bs generalizing s k with
  | nil => rfl
  | cons b bs ih => rw [State.setRegsFrom, ih]; rfl

@[simp] theorem State.setRegsFrom_loadOpen (s : State) (k : Nat) (bs : List Byte) : (s.setRegsFrom k bs).loadOpen = s.loadOpen := by
  induction bs generalizing s k with
  | nil => rfl
  | cons b bs ih => rw [State.setRegsFrom, ih]; rfl

@[simp] theorem State.setRegsFrom_status (s : State) (k : Nat) (bs : List Byte) : (s.setRegsFrom k bs).status = s.status := by
  induction bs generalizing s k with
  | nil => rfl
  | cons b bs ih => rw [State.setRegsFrom, ih]; rfl

@[simp] theorem State.setRegsFrom_host (s : State) (k : Nat) (bs : List Byte) : (s.setRegsFrom k bs).host = s.host := by
  induction bs generalizing s k with
  | nil => rfl
  | cons b bs ih => rw [State.setRegsFrom, ih]; rfl

@[simp] theorem State.setRegsFrom_draws (s : State) (k : Nat) (bs : List Byte) : (s.setRegsFrom k bs).draws = s.draws := by
  induction bs generalizing s k with
  | nil => rfl
  | cons b bs ih => rw [State.setRegsFrom, ih]; rfl

end Sys2Proof.Machine
end

