-- ==== Sys2Proof/Safety.lean ====
section
/-! DEFINITION. The terms claims use: how an instruction ends, what it leaves unchanged (frames), the invariant every step
keeps, and the ends of a run (70_reset_and_hazards.md R155). -/

namespace Sys2Proof.Machine

/-! ## How an instruction ends -/

/-- The instruction answers a next state and that state has the property. -/
def Completes (i : Instr) (s : State) (post : State → Prop) : Prop := ∃ t, exec i s = .next t ∧ post t

/-- The instruction takes a fault: nothing is committed, pc keeps pc0, the record is latched, the block is HALTED and the
cycle returns FAULT (60_exceptions.md R126, R127; logs 11, 12). -/
def TakesFault (i : Instr) (s : State) (c : FaultCause) : Prop :=
  exec i s = .next { s with runState := .halted ⟨c, s.pc⟩, status := some (.fault ⟨c, s.pc⟩) }

/-- Every one of the `n` effective addresses `I + k` lies in memory (20_memory.md R55). -/
def AccessInRange (s : State) (n : Nat) : Prop := ∀ k, k < n → s.I.toNat + k ≤ 0xFFF

/-! ## Frames: `t` has what `s` had -/

/-- Every general register. -/
def SameRegs (s t : State) : Prop := ∀ r, t.reg r = s.reg r
/-- The address register. -/
def SameI (s t : State) : Prop := t.I = s.I
/-- The stack pointer and every slot. -/
def SameStack (s t : State) : Prop := t.sp = s.sp ∧ ∀ j : Fin 16, t.stack[j] = s.stack[j]
/-- Both timers. -/
def SameTimers (s t : State) : Prop := t.DT = s.DT ∧ t.ST = s.ST
/-- Every pixel. -/
def SameDisplay (s t : State) : Prop := ∀ c r, t.fb.pixel c r = s.fb.pixel c r
/-- Every byte of memory, and the font it was created with. -/
def SameMemory (s t : State) : Prop := t.mem.font = s.mem.font ∧ ∀ a, t.mem.read a = s.mem.read a
/-- Every byte of memory but the `n` bytes from `a` on, and the font it was created with. -/
def SameMemoryOutside (s t : State) (a n : Nat) : Prop :=
  t.mem.font = s.mem.font ∧ ∀ p, (p < a ∨ a + n ≤ p) → t.mem.read p = s.mem.read p
/-- The run state, the inputs of the cycle, Load's slot and the host's side. -/
def SameRun (s t : State) : Prop :=
  t.runState = s.runState ∧ t.keys = s.keys ∧ t.rnd = s.rnd ∧ t.loadOpen = s.loadOpen ∧ t.host = s.host ∧
    t.draws = s.draws

/-- Everything but the general registers and pc (and the returned status). -/
def SameButRegs (s t : State) : Prop :=
  SameI s t ∧ SameStack s t ∧ SameTimers s t ∧ SameDisplay s t ∧ SameMemory s t ∧ SameRun s t

/-- Everything but pc (and the returned status). -/
def SameButPc (s t : State) : Prop := SameRegs s t ∧ SameButRegs s t

/-- Everything but the address register and pc (and the returned status). -/
def SameButI (s t : State) : Prop :=
  SameRegs s t ∧ SameStack s t ∧ SameTimers s t ∧ SameDisplay s t ∧ SameMemory s t ∧ SameRun s t

/-- Everything but the stack and pc (and the returned status). -/
def SameButStack (s t : State) : Prop :=
  SameRegs s t ∧ SameI s t ∧ SameTimers s t ∧ SameDisplay s t ∧ SameMemory s t ∧ SameRun s t

/-- Everything but the `n` bytes of memory from `a` on and pc (and the returned status). -/
def SameButBytes (s t : State) (a n : Nat) : Prop :=
  SameRegs s t ∧ SameI s t ∧ SameStack s t ∧ SameTimers s t ∧ SameDisplay s t ∧ SameMemoryOutside s t a n ∧ SameRun s t

/-! ## Families -/

/-- The instruction is one of the nine of group 0x8 with `x` as its destination (10_state.md R25). -/
def WritesByGroup8 (i : Instr) (x : Reg) : Prop :=
  ∃ y, i = .ldVV x y ∨ i = .orVV x y ∨ i = .andVV x y ∨ i = .xorVV x y ∨ i = .addVV x y ∨ i = .subVV x y ∨
    i = .shr x y ∨ i = .subnVV x y ∨ i = .shl x y

/-! ## Sprites (40_display.md R84) -/

/-- A 1 bit of the sprite of `DRW Vx, Vy, n` falls on pixel (c, r): bit `7 - j` of row byte `k`, at column
`(x0 + j) mod 64` and row `(y0 + k) mod 32`. -/
def SpriteCovers (s : State) (x y : Reg) (n : Nat) (c : Fin 64) (r : Fin 32) : Prop :=
  ∃ k j, k < n ∧ j < 8 ∧ c.val = ((s.reg x).toNat % 64 + j) % 64 ∧ r.val = ((s.reg y).toNat % 32 + k) % 32 ∧
    (s.mem.read (s.I.toNat + k)).getLsbD (7 - j) = true

/-! ## The invariant -/

/-- A fault record is one the block can latch: its info is in the range of 60_exceptions.md R120. -/
def FaultRecord.legal (r : FaultRecord) : Prop :=
  match r.cause with
  | .loadError l => 3584 < l ∧ r.pc0 = 0x200
  | .decodeError w => decode w = none ∧ r.pc0.toNat ≤ 0xFFE
  | .stackOverflow => r.pc0.toNat ≤ 0xFFE
  | .stackUnderflow => r.pc0.toNat ≤ 0xFFE
  | .outOfBounds a => (16 ≤ a ∧ a ≤ 255) ∨ (0x1000 ≤ a ∧ a ≤ 0xFFFF)

/-- What holds between transactions, from reset on: memory in canonical form; pc at most 0x10FE (10_state.md R29); every
return address at most 0x1000 (41_control_transfer.md R85); a latched record that is legal, names pc, and agrees with the
stack (60_exceptions.md R120, R127); before the first cycle and load, a running block at 0x200
(70_reset_and_hazards.md R145, R148). -/
structure Inv (s : State) : Prop where
  memory : s.mem.wf
  pcBound : s.pc.toNat ≤ 0x10FE
  returns : ∀ j : Fin 16, s.stack[j].toNat ≤ 0x1000
  record : ∀ r, s.runState = .halted r → r.legal ∧ r.pc0 = s.pc
  overflow : ∀ p, s.runState = .halted ⟨.stackOverflow, p⟩ → s.sp = some 15
  underflow : ∀ p, s.runState = .halted ⟨.stackUnderflow, p⟩ → s.sp = none
  loadSlot : s.loadOpen = true → s.runState = .running ∧ s.pc = 0x200

/-! ## Ends of a run (70_reset_and_hazards.md R155, the spec's decision D29; log 30) -/

/-- R155 (a): HALTED with a fault record. -/
def FaultEnd (s : State) : Prop := ∃ r, s.runState = .halted r

/-- The step from `s` to `t` is a `Cycle` that committed its instruction, so it returned OK (10_state.md R45, R46). -/
def CommittedCycle (s t : State) : Prop :=
  (∃ keys rnd, s.nextTransaction = .cycle keys rnd) ∧ step s = .next t ∧ t.status = some .ok

/-- Running, with the word `0x1000 | pc`, a jump to itself, at pc. R155 has pc at most 0xFFF; at 0xFFF itself there is no
word, since its second byte lies outside memory (20_memory.md R56). -/
def AtSelfJump (s : State) : Prop :=
  s.runState = .running ∧ s.pc.toNat ≤ 0xFFE ∧ s.fetchWord = 0x1000#16 ||| s.pc

/-- R155 (b): a committed cycle leaves pc at a jump to itself. A state a `Reset` or a `Load` leaves there is no such end. -/
def NormalEnd (s t : State) : Prop := CommittedCycle s t ∧ AtSelfJump t

end Sys2Proof.Machine
end

