-- ==== Sys2Proof/Laws/Ops.lean ====
section
/-! SUPPORT. One lemma per shared operation that says what it does: access checks, key scan, register blocks, stack indices,
fetch, and the ends of a cycle. -/

namespace Sys2Proof.Machine

/-! ### Access checks -/

/-- An access whose addresses all lie in memory has no bad address. -/
theorem State.firstBadAddress_of_inRange {s : State} {n : Nat} (h : AccessInRange s n) :
    s.firstBadAddress n = none := by
  simp only [State.firstBadAddress, List.find?_eq_none, List.mem_map, List.mem_range, decide_eq_true_eq]
  rintro a ⟨k, hk, rfl⟩
  have := h k hk
  simp only [State.effectiveAddress]; omega

/-- No bad address means that all addresses lie in memory. -/
theorem State.inRange_of_firstBadAddress {s : State} {n : Nat} (h : s.firstBadAddress n = none) :
    AccessInRange s n := by
  simp only [State.firstBadAddress, List.find?_eq_none, List.mem_map, List.mem_range, decide_eq_true_eq] at h
  intro k hk
  have := h _ ⟨k, hk, rfl⟩
  simp only [State.effectiveAddress] at this; omega

/-- The bad address of an access is an effective address above 0xFFF and the lowest such. -/
theorem State.firstBadAddress_spec {s : State} {n a : Nat} (h : s.firstBadAddress n = some a) :
    ∃ k, k < n ∧ a = s.I.toNat + k ∧ 0xFFF < a ∧ ∀ j, j < k → s.I.toNat + j ≤ 0xFFF := by
  induction n with
  | zero => simp [State.firstBadAddress] at h
  | succ n ih =>
    simp only [State.firstBadAddress, List.range_succ, List.map_append, List.find?_append] at h
    cases hn : s.firstBadAddress n with
    | some b =>
      have hb : b = a := by
        simp only [State.firstBadAddress] at hn
        rw [hn] at h; simpa using h
      obtain ⟨k, hk, h1⟩ := ih (hb ▸ hn)
      exact ⟨k, by omega, h1⟩
    | none =>
      have hr := State.inRange_of_firstBadAddress hn
      simp only [State.firstBadAddress] at hn
      rw [hn] at h
      simp only [List.map_cons, List.map_nil, Option.none_or, List.find?_cons, List.find?_nil,
        State.effectiveAddress] at h
      split at h
      · rename_i hlt
        have ha : s.I.toNat + n = a := by simpa using h
        have hlt' : 0xFFF < s.I.toNat + n := by simpa using hlt
        exact ⟨n, by omega, ha.symm, by omega, hr⟩
      · cases h

/-- An access that leaves memory has the larger of I and 0x1000 as its bad address (60_exceptions.md R120). -/
theorem State.firstBadAddress_eq {s : State} {n : Nat} (h : 0 < n) (hout : 0xFFF < s.I.toNat + (n - 1)) :
    s.firstBadAddress n = some (max s.I.toNat 0x1000) := by
  cases ha : s.firstBadAddress n with
  | none =>
    have := State.inRange_of_firstBadAddress ha (n - 1) (by omega)
    omega
  | some a =>
    obtain ⟨k, hk, rfl, hbad, hlow⟩ := State.firstBadAddress_spec ha
    congr 1
    rcases Nat.eq_zero_or_pos k with rfl | hk'
    · omega
    · have := hlow (k - 1) (by omega)
      omega

theorem State.withAccess_of_inRange {s : State} {n : Nat} (h : AccessInRange s n) (done : State) :
    s.withAccess n done = done.committed := by
  simp [State.withAccess, State.firstBadAddress_of_inRange h]

theorem State.withAccess_of_outside {s : State} {n : Nat} (h : 0 < n) (hout : 0xFFF < s.I.toNat + (n - 1))
    (done : State) : s.withAccess n done = s.raise (.outOfBounds (max s.I.toNat 0x1000)) := by
  simp [State.withAccess, State.firstBadAddress_eq h hout]

/-- Everything an access can do: commit with every address in memory, or fault with an address outside it. -/
theorem State.withAccess_cases (s : State) (n : Nat) (done : State) :
    (AccessInRange s n ∧ s.withAccess n done = done.committed) ∨
    ∃ a, 0x1000 ≤ a ∧ a ≤ max 0x1000 s.I.toNat ∧ s.withAccess n done = s.raise (.outOfBounds a) := by
  cases ha : s.firstBadAddress n with
  | none => exact .inl ⟨State.inRange_of_firstBadAddress ha, by simp [State.withAccess, ha]⟩
  | some a =>
    obtain ⟨k, _, rfl, hbad, hlow⟩ := State.firstBadAddress_spec ha
    refine .inr ⟨s.I.toNat + k, by omega, ?_, by simp [State.withAccess, ha]⟩
    rcases Nat.eq_zero_or_pos k with rfl | hk'
    · omega
    · have := hlow (k - 1) (by omega)
      omega

/-- Everything a key check can do. -/
theorem State.withKeyIndex_cases (s : State) (k : Byte) (done : State) :
    (k.toNat ≤ 15 ∧ s.withKeyIndex k done = done.committed) ∨
    (15 < k.toNat ∧ s.withKeyIndex k done = s.raise (.outOfBounds k.toNat)) := by
  unfold State.withKeyIndex
  split
  · exact .inr ⟨‹_›, rfl⟩
  · exact .inl ⟨by omega, rfl⟩

/-! ### Keys -/

/-- No pressed key is found exactly when no key is pressed. -/
theorem State.firstPressedKey_eq_none {s : State} :
    s.firstPressedKey = none ↔ ∀ k : Fin 16, s.keyPressed k = false := by
  simp [State.firstPressedKey]

/-- The key found is pressed, and no lower one is. -/
theorem State.firstPressedKey_spec {s : State} {k : Fin 16} (h : s.firstPressedKey = some k) :
    s.keyPressed k = true ∧ ∀ j : Fin 16, j < k → s.keyPressed j = false := by
  unfold State.firstPressedKey at h
  refine ⟨by simpa using List.find?_some h, fun j hj => ?_⟩
  obtain ⟨_, as, bs, hl, hno⟩ := List.find?_eq_some_iff_append.mp h
  have hjm : j ∈ as ++ k :: bs := hl ▸ List.mem_finRange j
  have hsorted : (as ++ k :: bs).Pairwise (· < ·) := hl ▸ List.pairwise_lt_finRange 16
  rcases List.mem_append.mp hjm with hj' | hj'
  · simpa using hno j hj'
  · have hk := (List.pairwise_append.mp hsorted).2.1
    rcases List.mem_cons.mp hj' with rfl | hj''
    · exact absurd hj (lt_irrefl _)
    · exact absurd ((List.pairwise_cons.mp hk).1 j hj'') (not_lt.mpr hj.le)

/-! ### Register blocks -/

/-- A register after bytes are written to V[k], V[k+1], …: the byte written to it, if one was. -/
theorem State.reg_setRegsFrom (s : State) (k : Nat) (bs : List Byte) (r : Reg) (hlen : k + bs.length ≤ 16) :
    (s.setRegsFrom k bs).reg r = if k ≤ r.val then (bs[r.val - k]?).getD (s.reg r) else s.reg r := by
  induction bs generalizing s k with
  | nil => simp [State.setRegsFrom]
  | cons b bs ih =>
    simp only [List.length_cons] at hlen
    have hk : (Fin.ofNat 16 k).val = k := Nat.mod_eq_of_lt (by omega)
    rw [State.setRegsFrom, ih _ _ (by omega), State.reg_setReg]
    by_cases h1 : k + 1 ≤ r.val
    · have h2 : r ≠ Fin.ofNat 16 k := fun e => by rw [e, hk] at h1; omega
      have h4 : r.val - k = (r.val - (k + 1)) + 1 := by omega
      rw [if_pos h1, if_neg h2, if_pos (by omega), h4, List.getElem?_cons_succ]
    · by_cases h2 : r = Fin.ofNat 16 k
      · have h3 : r.val = k := by rw [h2, hk]
        rw [if_neg h1, if_pos h2, if_pos (by omega), h3]; simp
      · have h3 : ¬ k ≤ r.val := fun h => h2 (Fin.ext (by rw [hk]; omega))
        rw [if_neg h1, if_neg h2, if_neg h3]

@[simp] theorem State.regsUpTo_length (s : State) (x : Reg) : (s.regsUpTo x).length = x.val + 1 := by
  simp [State.regsUpTo]

theorem State.regsUpTo_getElem (s : State) (x : Reg) {k : Nat} (h : k < (s.regsUpTo x).length) :
    (s.regsUpTo x)[k] = s.reg (Fin.ofNat 16 k) := by simp [State.regsUpTo]

/-! ### Stack indices -/

theorem pushedIndex_none : pushedIndex none = some 0 := rfl

theorem pushedIndex_of_lt {j : Fin 16} (h : j.val < 15) :
    pushedIndex (some j) = some ⟨j.val + 1, by omega⟩ := by simp [pushedIndex, show j.val + 1 < 16 by omega]

theorem pushedIndex_eq_none {p : Option (Fin 16)} : pushedIndex p = none ↔ p = some 15 := by
  rcases p with _ | j
  · simp [pushedIndex]
  · simp only [pushedIndex]; constructor
    · intro h; split at h
      · cases h
      · exact congrArg some (Fin.ext (by have := j.isLt; show j.val = 15; omega))
    · rintro h; obtain rfl : j = 15 := by simpa using h
      rfl

/-- Popping the index just pushed gives back the index before the push. -/
theorem poppedIndex_of_pushed {p : Option (Fin 16)} {j : Fin 16} (h : pushedIndex p = some j) :
    poppedIndex j = p := by
  rcases p with _ | i
  · obtain rfl : 0 = j := by simpa [pushedIndex] using h
    rfl
  · simp only [pushedIndex] at h
    split at h
    · obtain rfl := Option.some.inj h
      simp [poppedIndex]
    · cases h

/-! ### Fetch -/

theorem fetchFault_of_le {pc : Word} (h : pc.toNat ≤ 0xFFE) : fetchFault pc = none := by
  simp [fetchFault, show ¬ 0xFFF < pc.toNat by omega, show ¬ 0xFFF < pc.toNat + 1 by omega]

theorem fetchFault_eq_none {pc : Word} : fetchFault pc = none ↔ pc.toNat ≤ 0xFFE := by
  constructor
  · intro h; unfold fetchFault at h; split at h
    · cases h
    · split at h
      · cases h
      · omega
  · exact fetchFault_of_le

theorem fetchFault_of_gt {pc : Word} (h : 0xFFE < pc.toNat) : fetchFault pc = some (max pc.toNat 0x1000) := by
  unfold fetchFault
  split
  · congr 1; omega
  · rw [if_pos (by omega)]; congr 1; omega

/-! ### Framebuffer -/

@[simp] theorem Framebuffer.pixel_blank (c : Fin 64) (r : Fin 32) : Framebuffer.blank.pixel c r = false := by
  simp [Framebuffer.blank, Framebuffer.pixel]

theorem Framebuffer.pixel_toggle (fb : Framebuffer) (c d : Fin 64) (r q : Fin 32) :
    Framebuffer.pixel (Framebuffer.toggle fb c r) d q = (Framebuffer.pixel fb d q ^^ decide (d = c ∧ q = r)) := by
  by_cases hc : d = c
  · subst hc
    by_cases hr : q = r
    · subst hr; simp [Framebuffer.pixel, Framebuffer.toggle]
    · have hr' : r.val ≠ q.val := fun e => hr (Fin.ext e.symm)
      simp [Framebuffer.pixel, Framebuffer.toggle, hr, hr']
  · have hc' : c.val ≠ d.val := fun e => hc (Fin.ext e.symm)
    simp [Framebuffer.pixel, Framebuffer.toggle, hc, hc']

/-- What one bit of a sprite does to a canvas. -/
theorem Canvas.drawBit_pixel (x0 : Nat) (q : Fin 32) (b : Byte) (k : Canvas) (c : Nat) (d : Fin 64) (r : Fin 32) :
    (Canvas.drawBit x0 q b k c).fb.pixel d r =
      (k.fb.pixel d r ^^ (b.getLsbD (7 - c) && decide (d = Fin.ofNat 64 (x0 + c) ∧ r = q))) := by
  unfold Canvas.drawBit
  split
  · rename_i h; simp [Canvas.plot, Framebuffer.pixel_toggle, h]
  · rename_i h; simp [h]

theorem Canvas.drawBit_collision (x0 : Nat) (q : Fin 32) (b : Byte) (k : Canvas) (c : Nat) :
    (Canvas.drawBit x0 q b k c).collision =
      (k.collision || (b.getLsbD (7 - c) && k.fb.pixel (Fin.ofNat 64 (x0 + c)) q)) := by
  unfold Canvas.drawBit
  split
  · rename_i h; simp [Canvas.plot, h]
  · rename_i h; simp [h]

/-! ### The step -/

/-- The transaction at the head of the schedule is the one that runs. -/
theorem step_of_cons {s : State} {t : Transaction} {rest : List Transaction} (h : s.host = t :: rest) :
    step s = transact t { s with host := rest } := by
  simp [step, State.nextTransaction, State.afterTaking, h]

/-- Beyond the list the free transaction runs, on the state with the counter advanced. -/
theorem step_of_nil {s : State} (h : s.host = []) :
    step s = transact s.freeTransaction { s with draws := s.draws + 1 } := by
  simp [step, State.nextTransaction, State.afterTaking, h]

/-- The free transaction is a Tick or a Cycle. -/
theorem State.freeTransaction_cases (s : State) :
    (Config.freeTick s.draws = true ∧ s.freeTransaction = .tick) ∨
    (Config.freeTick s.draws = false ∧
      s.freeTransaction = .cycle (Config.freeKeys s.draws) (Config.freeRnd s.draws)) := by
  unfold State.freeTransaction
  cases Config.freeTick s.draws
  · exact .inr ⟨rfl, rfl⟩
  · exact .inl ⟨rfl, rfl⟩

/-- What `cycleNext` puts next is a Cycle. -/
theorem State.nextTransaction_cycleNext (s : State) : ∃ keys rnd, s.cycleNext.nextTransaction = .cycle keys rnd := by
  unfold State.cycleNext
  split
  · exact ⟨_, _, rfl⟩
  · rename_i t rest e
    have ht := List.head?_dropWhile_not (fun t : Transaction => !t.isCycle) s.host
    rw [e] at ht
    cases t <;> first | exact ⟨_, _, rfl⟩ | simp [Transaction.isCycle] at ht

end Sys2Proof.Machine
end

