-- ==== Sys2Proof/Certificates/Slice0/Obligations.lean ====
section
/-! DEFINITION. The statements for the provers. Each docstring names the rules of spec/ it formalises; where a clause rests
on a decision the spec marks as its own, or on a choice of the model, it names the decision or the log entry. -/

open Sys2Proof Sys2Proof.Machine

/-! ## Encoding -/

/-- Decoding the word of any well-formed instruction gives the instruction back, with every operand at every value
(30_encoding.md R74, R75; the strict decode is the spec's decision D12, log 16). -/
def Obligations.DecodeOfEncodeIsTheInstruction : Prop :=
  ∀ i : Instr, i.wellFormed = true → decode (encode i) = some i

/-- Every word the decoder accepts is the encoding of the well-formed instruction it reads: no bit of a word is dropped
(30_encoding.md R74, R75). It rests on choices: the strict decode is the spec's decision D12, log 16, and SHR and SHL
keeping their y nibble is log 24. -/
def Obligations.EncodeOfDecodedIsTheWord : Prop :=
  ∀ (w : Word) (i : Instr), decode w = some i → i.wellFormed = true ∧ encode i = w

/-- Every word either matches exactly one row of the opcode table, and decodes to that row's instruction, or matches none
and is rejected (30_encoding.md R75; decision D12, log 16). -/
def Obligations.DecodeIsTheUniqueTableRow : Prop :=
  ∀ w : Word, (opcodeTable.filter (fun r => r.accepts w)).map TableRow.mnemonic =
    ((decode w).map Instr.mnemonic).toList

/-- The words 30_encoding.md R77 lists as illegal are exactly those the decoder rejects (decision D12, log 16). -/
def Obligations.IllegalWordsAreTheListedOnes : Prop :=
  ∀ w : Word, decode w = none ↔
    (opField w = 0x0 ∧ w ≠ 0x00E0 ∧ w ≠ 0x00EE) ∨ (opField w = 0x5 ∧ nField w ≠ 0) ∨
    (opField w = 0x8 ∧ nField w ∈ [0x8#4, 0x9#4, 0xA#4, 0xB#4, 0xC#4, 0xD#4, 0xF#4]) ∨
    (opField w = 0x9 ∧ nField w ≠ 0) ∨ (opField w = 0xE ∧ kkField w ≠ 0x9E ∧ kkField w ≠ 0xA1) ∨
    (opField w = 0xF ∧
      kkField w ∉ [0x07#8, 0x0A#8, 0x15#8, 0x18#8, 0x1E#8, 0x29#8, 0x33#8, 0x55#8, 0x65#8])

/-- The full patterns of the instructions whose own statements below give no word: each is read from exactly the words of
its row (spec/opcode_table.json; 30_encoding.md R74 to R76; strict, decision D12, log 16; SHR and SHL accept every y). -/
def Obligations.RemainingPatternsDecode : Prop :=
  ∀ (w : Word) (x y : Reg) (n : BitVec 4) (nnn : BitVec 12),
    (decode w = some .ret ↔ w = 0x00EE) ∧ (decode w = some (.call nnn) ↔ w = 0x2#4 ++ nnn) ∧
    (decode w = some (.addVV x y) ↔ w = 0x8#4 ++ BitVec.ofFin (w := 4) x ++ BitVec.ofFin (w := 4) y ++ 0x4#4) ∧
    (decode w = some (.subVV x y) ↔ w = 0x8#4 ++ BitVec.ofFin (w := 4) x ++ BitVec.ofFin (w := 4) y ++ 0x5#4) ∧
    (decode w = some (.shr x y) ↔ w = 0x8#4 ++ BitVec.ofFin (w := 4) x ++ BitVec.ofFin (w := 4) y ++ 0x6#4) ∧
    (decode w = some (.subnVV x y) ↔ w = 0x8#4 ++ BitVec.ofFin (w := 4) x ++ BitVec.ofFin (w := 4) y ++ 0x7#4) ∧
    (decode w = some (.shl x y) ↔ w = 0x8#4 ++ BitVec.ofFin (w := 4) x ++ BitVec.ofFin (w := 4) y ++ 0xE#4) ∧
    (decode w = some (.drw x y n.toNat) ↔ w = 0xD#4 ++ BitVec.ofFin (w := 4) x ++ BitVec.ofFin (w := 4) y ++ n) ∧
    (decode w = some (.skp x) ↔ w = 0xE#4 ++ BitVec.ofFin (w := 4) x ++ 0x9E#8) ∧
    (decode w = some (.sknp x) ↔ w = 0xE#4 ++ BitVec.ofFin (w := 4) x ++ 0xA1#8) ∧
    (decode w = some (.ldVK x) ↔ w = 0xF#4 ++ BitVec.ofFin (w := 4) x ++ 0x0A#8) ∧
    (decode w = some (.ldFV x) ↔ w = 0xF#4 ++ BitVec.ofFin (w := 4) x ++ 0x29#8) ∧
    (decode w = some (.ldBV x) ↔ w = 0xF#4 ++ BitVec.ofFin (w := 4) x ++ 0x33#8) ∧
    (decode w = some (.ldMemV x) ↔ w = 0xF#4 ++ BitVec.ofFin (w := 4) x ++ 0x55#8) ∧
    (decode w = some (.ldVMem x) ↔ w = 0xF#4 ++ BitVec.ofFin (w := 4) x ++ 0x65#8)

/-- Words the spec writes out in its examples decode to the instructions it names (40_display.md to 45_timers_input.md), and
two words are rejected; the rejections rest on the strict decode, the spec's decision D12, log 16. -/
def Obligations.SpecExampleWordsDecode : Prop :=
  decode 0x00E0 = some .cls ∧ decode 0xD125 = some (.drw 1 2 5) ∧ decode 0x00EE = some .ret ∧
  decode 0x2210 = some (.call 0x210) ∧ decode 0x4311 = some (.sneVB 3 0x11) ∧ decode 0x9250 = some (.sneVV 2 5) ∧
  decode 0xE4A1 = some (.sknp 4) ∧ decode 0x6A02 = some (.ldVB 10 2) ∧ decode 0x8127 = some (.subnVV 1 2) ∧
  decode 0xC30F = some (.rnd 3 0x0F) ∧ decode 0xF255 = some (.ldMemV 2) ∧ decode 0xF30A = some (.ldVK 3) ∧
  decode 0xF518 = some (.ldSTV 5) ∧ decode 0x5251 = none ∧ decode 0x0000 = none

/-! ## The step -/

/-- When the block is running, a Cycle comes next and the big-endian word at a fetchable pc decodes to `i`, step is exec of
`i` at that state, with the cycle's inputs sampled, Load closed and the transaction taken off the schedule; beyond the
listed schedule so it is whenever the host's free choice is no Tick (10_state.md R46, 20_memory.md R53; 60_exceptions.md
R137, decision D20). Choices in it: the schedule, and the free transactions and inputs beyond its end, are the
model's, logs 1 and 2; inputs sampled at the start are decision D25, log 10; the Cycle closing Load's slot is D23, log 23; an odd pc
fetching as any other is D9, log 15. -/
def Obligations.StepExecutesTheFetchedInstruction : Prop :=
  ∀ (s : State) (i : Instr), s.runState = .running → s.pc.toNat ≤ 0xFFE →
    decode (s.mem.read s.pc.toNat ++ s.mem.read (s.pc.toNat + 1)) = some i →
    (∀ keys rnd rest, s.host = .cycle keys rnd :: rest →
      step s = exec i { s with keys := keys, rnd := rnd, loadOpen := false, host := rest }) ∧
    (s.host = [] →
      step s = if Config.freeTick s.draws = true then .next { s with draws := s.draws + 1 }.tick
        else exec i { s with
          keys := Config.freeKeys s.draws, rnd := Config.freeRnd s.draws, loadOpen := false, draws := s.draws + 1 })

/-- A cycle whose fetch leaves memory takes OutOfBounds with the lowest bad address: pc itself above 0xFFF, 0x1000 at
0xFFF (20_memory.md R56, the spec's decision D9, log 15; the fault entry is decision D10, log 11). -/
def Obligations.FetchOutsideMemoryFaults : Prop :=
  ∀ (s : State) (keys : BitVec 16) (rnd : Byte), s.runState = .running →
    s.nextTransaction = .cycle keys rnd → 0xFFE < s.pc.toNat →
    step s = .next ((s.afterTaking.sample keys rnd).halt
      ⟨.outOfBounds (if s.pc = 0xFFF then 0x1000 else s.pc.toNat), s.pc⟩)

/-- A fetched word that matches no instruction takes DecodeError with that word (30_encoding.md R78, 60_exceptions.md R122;
which words match none is the strict decode, decision D12, log 16; the fault entry is decision D10, log 11). -/
def Obligations.FetchedIllegalWordFaults : Prop :=
  ∀ (s : State) (keys : BitVec 16) (rnd : Byte), s.runState = .running →
    s.nextTransaction = .cycle keys rnd → s.pc.toNat ≤ 0xFFE → decode s.fetchWord = none →
    step s = .next ((s.afterTaking.sample keys rnd).halt ⟨.decodeError s.fetchWord, s.pc⟩)

/-- In HALTED a Cycle commits nothing and returns the latched FAULT again (60_exceptions.md R128, decisions D10, D20;
that this is a next state, not an end of the run, is log 11). -/
def Obligations.HaltedCycleReturnsTheLatchedFault : Prop :=
  ∀ (s : State) (r : FaultRecord) (keys : BitVec 16) (rnd : Byte), s.runState = .halted r →
    s.nextTransaction = .cycle keys rnd →
    ∃ t, step s = .next t ∧ t.status = some (.fault r) ∧ t.runState = .halted r ∧ t.pc = s.pc ∧
      SameRegs s t ∧ SameI s t ∧ SameStack s t ∧ SameTimers s t ∧ SameDisplay s t ∧ SameMemory s t

/-- Only Reset leaves HALTED: from a halted state that meets the invariant, whatever the transaction, the next state
is halted with the same record, or the transaction was Reset (60_exceptions.md R128, decision D10; that Load's slot is not
open in a halted state is decision D23, log 23). -/
def Obligations.OnlyResetLeavesHalted : Prop :=
  ∀ (s t : State) (r : FaultRecord), Inv s → s.runState = .halted r → step s = .next t →
    t.runState = .halted r ∨ s.nextTransaction = .reset

/-- Faults are precise: an instruction that ends HALTED names the address it was fetched from and changed nothing but the
run state and the returned status (60_exceptions.md R126, R127, decision D10; log 11). -/
def Obligations.FaultingInstructionCommitsNothing : Prop :=
  ∀ (i : Instr) (s t : State) (r : FaultRecord), s.runState = .running → exec i s = .next t →
    t.runState = .halted r →
    r.pc0 = s.pc ∧ t = { s with runState := .halted r, status := some (.fault r) }

/-- A cycle of a running block returns exactly one status, which says how it ended: OK and still running, WAITING with
nothing committed, or FAULT with the latched record (10_state.md R45, decisions D10, D14; the status field is log 12). -/
def Obligations.StatusSaysHowTheCycleEnded : Prop :=
  ∀ (s t : State) (keys : BitVec 16) (rnd : Byte), s.runState = .running →
    s.nextTransaction = .cycle keys rnd → step s = .next t →
    (t.status = some .ok ∧ t.runState = .running) ∨
    (t = { s.afterTaking.sample keys rnd with status := some .waiting } ∧ keys = 0) ∨
    (∃ r, t = (s.afterTaking.sample keys rnd).halt r ∧ r.pc0 = s.pc)

/-- Every step answers a next state, but for a Load outside its slot, which is refused (70_reset_and_hazards.md R148,
decision D23, log 23; that faults are next states is log 11). -/
def Obligations.StepAnswersNextUnlessLoadIsLate : Prop :=
  ∀ s : State, (∃ t, step s = .next t) ∨
    (∃ rom, s.nextTransaction = .load rom ∧ s.loadOpen = false ∧ step s = .refused .loadOutsideSlot)

/-! ## The host's transactions -/

/-- Tick: `if DT > 0 then DT <- DT - 1`; `if ST > 0 then ST <- ST - 1`; in HALTED too; nothing else changes, every field of
State named, whether the Tick is listed or the host's free choice (60_exceptions.md R135). Choices in it: counting in HALTED too is the spec's decision D20, log 11; Load's slot
staying as it was is D23, log 23; the schedule, the inputs and the status as fields are the model's, logs 1, 2, 10, 12. -/
def Obligations.TickCountsBothTimersDown : Prop :=
  ∀ s : State, s.nextTransaction = .tick →
    ∃ t, step s = .next t ∧ t.DT.toNat = s.DT.toNat - 1 ∧ t.ST.toNat = s.ST.toNat - 1 ∧ t.pc = s.pc ∧
      SameRegs s t ∧ SameI s t ∧ SameStack s t ∧ SameDisplay s t ∧ SameMemory s t ∧ t.runState = s.runState ∧
      t.loadOpen = s.loadOpen ∧ t.status = s.status ∧ t.keys = s.keys ∧ t.rnd = s.rnd ∧ t.host = s.host.tail ∧
      t.draws = (if s.host = [] then s.draws + 1 else s.draws)

/-- Reset, from any state: registers, I, stack, timers and framebuffer 0, pc 0x200, sp EMPTY, RUNNING, memory the font
and then 0 (70_reset_and_hazards.md R143, R144; the values of sp, stack, DT, ST, fb and of memory outside the font are the
spec's decisions D2 to D6, logs 5 to 9; Load being open is D23, log 23; the font is whatever font the machine has, log 4;
that the rest of the schedule stays is the model's choice, log 27). -/
def Obligations.ResetSetsEveryItem : Prop :=
  ∀ (s : State) (rest : List Transaction), s.host = .reset :: rest →
    ∃ t, step s = .next t ∧ (∀ r, t.reg r = 0) ∧ t.I = 0 ∧ t.pc = 0x200 ∧ t.sp = none ∧
      (∀ j : Fin 16, t.stack[j] = 0) ∧ t.DT = 0 ∧ t.ST = 0 ∧ (∀ c r, t.fb.pixel c r = false) ∧
      t.runState = .running ∧ t.loadOpen = true ∧ t.host = rest ∧
      (∀ a (h : a < 80), t.mem.read a = s.mem.font[a]) ∧ (∀ a, 80 ≤ a → t.mem.read a = 0)

/-- The state the model starts from: the same values (70_reset_and_hazards.md R143, R144; decisions D2 to D7, logs 4 to 9;
that Load is open is decision D23, log 23) with the 80 bytes of the spec's default font, glyph by glyph
(20_memory.md R52: general knowledge, log 4). -/
def Obligations.StartStateHoldsResetValues : Prop :=
  (∀ r, State.reset.reg r = 0) ∧ State.reset.I = 0 ∧ State.reset.pc = 0x200 ∧ State.reset.sp = none ∧
  (∀ j : Fin 16, State.reset.stack[j] = 0) ∧ State.reset.DT = 0 ∧ State.reset.ST = 0 ∧
  (∀ c r, State.reset.fb.pixel c r = false) ∧ State.reset.runState = .running ∧ State.reset.loadOpen = true ∧
  State.reset.mem.readList 0 20 =
    [0xF0, 0x90, 0x90, 0x90, 0xF0, 0x20, 0x60, 0x20, 0x20, 0x70, 0xF0, 0x10, 0xF0, 0x80, 0xF0, 0xF0, 0x10, 0xF0, 0x10, 0xF0] ∧
  State.reset.mem.readList 20 20 =
    [0x90, 0x90, 0xF0, 0x10, 0x10, 0xF0, 0x80, 0xF0, 0x10, 0xF0, 0xF0, 0x80, 0xF0, 0x90, 0xF0, 0xF0, 0x10, 0x20, 0x40, 0x40] ∧
  State.reset.mem.readList 40 20 =
    [0xF0, 0x90, 0xF0, 0x90, 0xF0, 0xF0, 0x90, 0xF0, 0x10, 0xF0, 0xF0, 0x90, 0xF0, 0x90, 0x90, 0xE0, 0x90, 0xE0, 0x90, 0xE0] ∧
  State.reset.mem.readList 60 20 =
    [0xF0, 0x80, 0x80, 0x80, 0xF0, 0xE0, 0x90, 0x90, 0x90, 0xE0, 0xF0, 0x80, 0xF0, 0x80, 0xF0, 0xF0, 0x80, 0xF0, 0x80, 0x80] ∧
  (∀ a, 80 ≤ a → State.reset.mem.read a = 0)

/-- Load of at most 3584 bytes copies them to 0x200 on, closes Load's slot, returns OK and changes nothing else
(70_reset_and_hazards.md R146, R148, decision D23, log 23; the schedule, the inputs and the status as fields are the
model's, logs 1, 2, 10, 12). -/
def Obligations.LoadCopiesTheImage : Prop :=
  ∀ (s : State) (rom : List Byte) (rest : List Transaction), s.host = .load rom :: rest → s.loadOpen = true →
    rom.length ≤ 3584 →
    ∃ t, step s = .next t ∧ (∀ k (h : k < rom.length), t.mem.read (0x200 + k) = rom[k]) ∧
      SameMemoryOutside s t 0x200 rom.length ∧ t.pc = s.pc ∧ SameRegs s t ∧ SameI s t ∧ SameStack s t ∧
      SameTimers s t ∧ SameDisplay s t ∧ t.runState = s.runState ∧ t.keys = s.keys ∧ t.rnd = s.rnd ∧
      t.draws = s.draws ∧ t.host = rest ∧ t.loadOpen = false ∧ t.status = some .ok

/-- Load of more than 3584 bytes copies nothing and halts with (LoadError, 0x200, L) (70_reset_and_hazards.md R147,
60_exceptions.md R121, decision D23, log 23; that the LoadError it returns is written as the status FAULT with that record
is the model's choice, log 12). -/
def Obligations.LoadOfTooLongImageHalts : Prop :=
  ∀ (s : State) (rom : List Byte) (rest : List Transaction), s.host = .load rom :: rest → s.loadOpen = true →
    3584 < rom.length →
    step s = .next { s with
      host := rest, loadOpen := false, runState := .halted ⟨.loadError rom.length, 0x200⟩
      status := some (.fault ⟨.loadError rom.length, 0x200⟩) }

/-- A Load after the first Cycle or after a Load is refused (70_reset_and_hazards.md R148, decision D23, log 23). -/
def Obligations.LoadOutsideItsSlotIsRefused : Prop :=
  ∀ (s : State) (rom : List Byte) (rest : List Transaction), s.host = .load rom :: rest → s.loadOpen = false →
    step s = .refused .loadOutsideSlot

/-! ## The invariant -/

/-- Every step keeps the invariant: canonical memory, pc at most 0x10FE, return addresses at most 0x1000, a legal latched
record that names pc, a running block at 0x200 while Load is open (10_state.md R29; 41_control_transfer.md R85;
60_exceptions.md R120). Its clauses rest on choices of the spec: pc beyond memory is D9, log 15; the record names pc, D10,
log 11; the ranges of info, D11, D8, D15 (and D12 for an illegal word), logs 13, 14, 19, 16; sp in a stack fault, D2,
log 6; Load's slot, D23, log 23. The canonical form of memory is the model's, log 5. -/
def Obligations.EveryStepKeepsTheBlockInvariant : Prop :=
  ∀ s t : State, Inv s → step s = .next t → Inv t

/-- The start state meets the invariant (its values of sp, stack and memory are the spec's decisions D2, D3, D6,
logs 5 to 7; Load being open is D23, log 23). -/
def Obligations.StartStateMeetsTheBlockInvariant : Prop := Inv State.reset

/-! ## Who writes what (whole-machine rules) -/

/-- Only LD_DT_V changes DT and only LD_ST_V changes ST; no instruction decrements a timer (60_exceptions.md R136). -/
def Obligations.OnlyTimerLoadsWriteTimers : Prop :=
  ∀ (i : Instr) (s t : State), exec i s = .next t →
    (t.DT ≠ s.DT → ∃ x, i = .ldDTV x) ∧ (t.ST ≠ s.ST → ∃ x, i = .ldSTV x)

/-- Only CLS and DRW change a pixel (10_state.md R35), and only LD_B_V and LD_MEM_V change a byte of memory
(20_memory.md R57). -/
def Obligations.OnlyDisplayAndStoreInstructionsWriteThem : Prop :=
  ∀ (i : Instr) (s t : State), exec i s = .next t →
    ((∃ c r, t.fb.pixel c r ≠ s.fb.pixel c r) → i = .cls ∨ ∃ x y n, i = .drw x y n) ∧
    ((∃ a, t.mem.read a ≠ s.mem.read a) → (∃ x, i = .ldBV x) ∨ ∃ x, i = .ldMemV x)

/-- Only CALL changes a stack slot, only CALL and RET change sp (10_state.md R31), and only LD_I, ADD_I_V and LD_F_V
change I (10_state.md R32). That the block moves leave I alone is the spec's decision D17, log 21. -/
def Obligations.OnlyListedInstructionsWriteStackAndI : Prop :=
  ∀ (i : Instr) (s t : State), exec i s = .next t →
    ((∃ j : Fin 16, t.stack[j] ≠ s.stack[j]) → ∃ nnn, i = .call nnn) ∧
    (t.sp ≠ s.sp → i = .ret ∨ ∃ nnn, i = .call nnn) ∧
    (t.I ≠ s.I → (∃ nnn, i = .ldI nnn) ∨ (∃ x, i = .addIV x) ∨ ∃ x, i = .ldFV x)

/-- A general register other than VF changes only in an instruction that names it as `x`, or, up to Vx, in LD_V_MEM
(10_state.md R25). -/
def Obligations.OnlyListedInstructionsWriteRegisters : Prop :=
  ∀ (i : Instr) (s t : State) (r : Reg), exec i s = .next t → r ≠ Reg.vf → t.reg r ≠ s.reg r →
    (∃ kk, i = .ldVB r kk ∨ i = .addVB r kk ∨ i = .rnd r kk) ∨ WritesByGroup8 i r ∨ i = .ldVDT r ∨ i = .ldVK r ∨
      ∃ x : Reg, r ≤ x ∧ i = .ldVMem x

/-! ## Display -/

/-- CLS: the one word 0x00E0; any other word of group 0x0 but 0x00EE is illegal; it completes with every pixel 0, pc + 2,
and nothing else changed, VF included (40_display.md R83; the strict decode is the spec's decision D12, log 16). -/
def Obligations.ClsClearsEveryPixel : Prop :=
  (∀ w, decode w = some .cls ↔ w = 0x00E0) ∧
  (∀ w, opField w = 0 → w ≠ 0x00E0 → w ≠ 0x00EE → decode w = none) ∧
  ∀ s : State, Completes .cls s fun t => (∀ c r, t.fb.pixel c r = false) ∧ t.pc = s.pc + 2 ∧
    SameRegs s t ∧ SameI s t ∧ SameStack s t ∧ SameTimers s t ∧ SameMemory s t ∧ SameRun s t

/-- DRW, against the rule read as a whole: a pixel ends toggled exactly when a 1 bit of the sprite falls on it, wrapping
at the edges, and VF ends 1 when one of those pixels was set, else 0; the coordinates are those before VF is written
(40_display.md R84; x or y = 15 is the spec's decision D13, log 17; wrapping is log 26). -/
def Obligations.DrwXorsTheSpriteAndReportsCollision : Prop :=
  ∀ (s : State) (x y : Reg) (n : Nat), n < 16 → AccessInRange s n →
    Completes (.drw x y n) s fun t =>
      (∀ c r, t.fb.pixel c r = true ↔
        (s.fb.pixel c r = true ∧ ¬ SpriteCovers s x y n c r) ∨ (s.fb.pixel c r = false ∧ SpriteCovers s x y n c r)) ∧
      (t.reg Reg.vf = 0 ∨ t.reg Reg.vf = 1) ∧
      (t.reg Reg.vf = 1 ↔ ∃ c r, s.fb.pixel c r = true ∧ SpriteCovers s x y n c r) ∧
      (∀ r, r ≠ Reg.vf → t.reg r = s.reg r) ∧ t.pc = s.pc + 2 ∧
      SameI s t ∧ SameStack s t ∧ SameTimers s t ∧ SameMemory s t ∧ SameRun s t

/-- The source's draw property (95_test_vectors.md E4): drawing the same sprite twice at the same position restores the
framebuffer, whatever it was; on an all-zero framebuffer the first draw leaves VF = 0 and the second leaves VF = 1 exactly
when the sprite has a 1 bit. With x or y = 15 the first draw changes the position, so those two are excluded. That every 1 bit falls on a
pixel, also at an edge, rests on wrapping, log 26. -/
def Obligations.DrawingTwiceRestoresTheFramebuffer : Prop :=
  ∀ (s t u : State) (x y : Reg) (n : Nat), n < 16 → AccessInRange s n → x ≠ Reg.vf → y ≠ Reg.vf →
    exec (.drw x y n) s = .next t → exec (.drw x y n) t = .next u →
    (∀ c r, u.fb.pixel c r = s.fb.pixel c r) ∧
    ((∀ c r, s.fb.pixel c r = false) →
      t.reg Reg.vf = 0 ∧ (u.reg Reg.vf = 1 ↔ ∃ c r, SpriteCovers s x y n c r))

/-! ## Control transfer -/

/-- RET on a stack that holds an entry goes to the popped address and lowers sp, EMPTY below 0, and clears no slot
(41_control_transfer.md R85; sp's encoding is the spec's decision D2, log 6). -/
def Obligations.RetPopsTheReturnAddress : Prop :=
  ∀ (s : State) (j : Fin 16), s.sp = some j →
    Completes .ret s fun t => t.pc = s.stack[j] ∧
      (∀ h : 0 < j.val, t.sp = some ⟨j.val - 1, by omega⟩) ∧ (j = 0 → t.sp = none) ∧
      (∀ k : Fin 16, t.stack[k] = s.stack[k]) ∧ SameButStack s t

/-- CALL on a stack with room pushes `pc0 + 2` at `sp + 1` and goes to nnn (41_control_transfer.md R87; sp's encoding is
the spec's decision D2, log 6). -/
def Obligations.CallPushesTheReturnAddress : Prop :=
  ∀ (s : State) (nnn : BitVec 12), s.sp ≠ some 15 →
    Completes (.call nnn) s fun t => t.pc = nnn.setWidth 16 ∧
      (∃ j : Fin 16, t.sp = some j ∧ (s.sp = none → j = 0) ∧ (∀ i, s.sp = some i → j.val = i.val + 1) ∧
        t.stack[j] = s.pc + 2 ∧ ∀ k : Fin 16, k ≠ j → t.stack[k] = s.stack[k]) ∧
      SameButStack s t

/-- CALL with 16 entries takes StackOverflow, RET with none takes StackUnderflow (60_exceptions.md R123, R124; sp is
decision D2, log 6; the fault entry is decision D10, log 11). -/
def Obligations.StackLimitsFault : Prop :=
  ∀ s : State, (∀ nnn, s.sp = some 15 → TakesFault (.call nnn) s .stackOverflow) ∧
    (s.sp = none → TakesFault .ret s .stackUnderflow)

/-- The source's round trip (95_test_vectors.md E6): a call followed at once by a return restores pc to the instruction
after the call, sp to its value before the call, and changes nothing else but the slot it wrote (sp's encoding is the
spec's decision D2, log 6). -/
def Obligations.CallThenReturnRestores : Prop :=
  ∀ (s : State) (nnn : BitVec 12), s.sp ≠ some 15 →
    ∃ t u, exec (.call nnn) s = .next t ∧ exec .ret t = .next u ∧ u.pc = s.pc + 2 ∧ u.sp = s.sp ∧ SameButStack s u

/-- JP: words 1nnn; pc becomes nnn and nothing else changes (41_control_transfer.md R86). -/
def Obligations.JpJumpsToTheAddress : Prop :=
  ∀ nnn : BitVec 12, (∀ w, decode w = some (.jp nnn) ↔ w = 0x1#4 ++ nnn) ∧
    ∀ s : State, Completes (.jp nnn) s fun t => t.pc.toNat = nnn.toNat ∧ SameButPc s t

/-- JP_V0: words Bnnn; pc becomes nnn + V0, not reduced, and nothing else changes (41_control_transfer.md R88). -/
def Obligations.JpV0AddsV0 : Prop :=
  ∀ nnn : BitVec 12, (∀ w, decode w = some (.jpV0 nnn) ↔ w = 0xB#4 ++ nnn) ∧
    ∀ s : State, Completes (.jpV0 nnn) s fun t => t.pc.toNat = nnn.toNat + (s.reg 0).toNat ∧ SameButPc s t

/-! ## Skips -/

/-- SE_VB and SNE_VB: words 3xkk and 4xkk; pc + 4 when V[x] equals (differs from) kk, else pc + 2; nothing else changes
(42_skips.md R89, R90). -/
def Obligations.ImmediateSkipsCompare : Prop :=
  ∀ (x : Reg) (kk : Byte),
    (∀ w, decode w = some (.seVB x kk) ↔ w = 0x3#4 ++ BitVec.ofFin (w := 4) x ++ kk) ∧
    (∀ w, decode w = some (.sneVB x kk) ↔ w = 0x4#4 ++ BitVec.ofFin (w := 4) x ++ kk) ∧
    ∀ s : State,
      (Completes (.seVB x kk) s fun t => t.pc = (if s.reg x = kk then s.pc + 4 else s.pc + 2) ∧ SameButPc s t) ∧
      (Completes (.sneVB x kk) s fun t => t.pc = (if s.reg x = kk then s.pc + 2 else s.pc + 4) ∧ SameButPc s t)

/-- SE_VV and SNE_VV: words 5xy0 and 9xy0, any other last nibble illegal; pc + 4 when V[x] equals (differs from) V[y],
else pc + 2; nothing else changes (42_skips.md R91, R92; the strict decode is the spec's decision D12, log 16). -/
def Obligations.RegisterSkipsCompare : Prop :=
  ∀ x y : Reg,
    (∀ w, decode w = some (.seVV x y) ↔ w = 0x5#4 ++ BitVec.ofFin (w := 4) x ++ BitVec.ofFin (w := 4) y ++ 0x0#4) ∧
    (∀ w, decode w = some (.sneVV x y) ↔ w = 0x9#4 ++ BitVec.ofFin (w := 4) x ++ BitVec.ofFin (w := 4) y ++ 0x0#4) ∧
    (∀ w, opField w = 0x5 ∨ opField w = 0x9 → nField w ≠ 0 → decode w = none) ∧
    ∀ s : State,
      (Completes (.seVV x y) s fun t =>
        t.pc = (if s.reg x = s.reg y then s.pc + 4 else s.pc + 2) ∧ SameButPc s t) ∧
      (Completes (.sneVV x y) s fun t =>
        t.pc = (if s.reg x = s.reg y then s.pc + 2 else s.pc + 4) ∧ SameButPc s t)

/-- SKP and SKNP with a key index 0 to 15: pc + 4 when that key is (is not) pressed, else pc + 2; nothing else changes,
the key state included (42_skips.md R93, R94; the key vector sampled at the start is the spec's decision D25, log 10). -/
def Obligations.KeySkipsTestTheKey : Prop :=
  ∀ (s : State) (x : Reg), (s.reg x).toNat ≤ 15 →
    (Completes (.skp x) s fun t =>
      t.pc = (if s.keys.getLsbD (s.reg x).toNat = true then s.pc + 4 else s.pc + 2) ∧ SameButPc s t) ∧
    (Completes (.sknp x) s fun t =>
      t.pc = (if s.keys.getLsbD (s.reg x).toNat = true then s.pc + 2 else s.pc + 4) ∧ SameButPc s t)

/-- SKP and SKNP with V[x] above 15 take OutOfBounds(V[x]) (42_skips.md R93, R94: the spec's decision D15, log 19; the
fault entry is decision D10, log 11). -/
def Obligations.KeySkipsFaultAboveFifteen : Prop :=
  ∀ (s : State) (x : Reg), 15 < (s.reg x).toNat →
    TakesFault (.skp x) s (.outOfBounds (s.reg x).toNat) ∧ TakesFault (.sknp x) s (.outOfBounds (s.reg x).toNat)

/-! ## Arithmetic and logic -/

/-- LD_VB and ADD_VB: words 6xkk and 7xkk; V[x] becomes kk, or (V[x] + kk) mod 256 with no flag; pc + 2; nothing else
changes (43_alu.md R96, R97). -/
def Obligations.ImmediateLoadAndAddWriteVx : Prop :=
  ∀ (x : Reg) (kk : Byte),
    (∀ w, decode w = some (.ldVB x kk) ↔ w = 0x6#4 ++ BitVec.ofFin (w := 4) x ++ kk) ∧
    (∀ w, decode w = some (.addVB x kk) ↔ w = 0x7#4 ++ BitVec.ofFin (w := 4) x ++ kk) ∧
    ∀ s : State,
      (Completes (.ldVB x kk) s fun t => (∀ r, t.reg r = if r = x then kk else s.reg r) ∧ t.pc = s.pc + 2 ∧
        SameButRegs s t) ∧
      (Completes (.addVB x kk) s fun t =>
        (t.reg x).toNat = ((s.reg x).toNat + kk.toNat) % 256 ∧ (∀ r, r ≠ x → t.reg r = s.reg r) ∧
        t.pc = s.pc + 2 ∧ SameButRegs s t)

/-- LD_VV, OR, AND and XOR: words 8xy0 to 8xy3; V[x] becomes V[y], or the bitwise combination, bit by bit; no flag
(VF changes only as x); pc + 2; nothing else changes (43_alu.md R98 to R101). -/
def Obligations.CopyAndLogicWriteVx : Prop :=
  ∀ x y : Reg,
    (∀ w, decode w = some (.ldVV x y) ↔ w = 0x8#4 ++ BitVec.ofFin (w := 4) x ++ BitVec.ofFin (w := 4) y ++ 0x0#4) ∧
    (∀ w, decode w = some (.orVV x y) ↔ w = 0x8#4 ++ BitVec.ofFin (w := 4) x ++ BitVec.ofFin (w := 4) y ++ 0x1#4) ∧
    (∀ w, decode w = some (.andVV x y) ↔ w = 0x8#4 ++ BitVec.ofFin (w := 4) x ++ BitVec.ofFin (w := 4) y ++ 0x2#4) ∧
    (∀ w, decode w = some (.xorVV x y) ↔ w = 0x8#4 ++ BitVec.ofFin (w := 4) x ++ BitVec.ofFin (w := 4) y ++ 0x3#4) ∧
    ∀ s : State,
      (Completes (.ldVV x y) s fun t => t.reg x = s.reg y ∧ (∀ r, r ≠ x → t.reg r = s.reg r) ∧
        t.pc = s.pc + 2 ∧ SameButRegs s t) ∧
      (Completes (.orVV x y) s fun t =>
        (∀ b, (t.reg x).getLsbD b = ((s.reg x).getLsbD b || (s.reg y).getLsbD b)) ∧
        (∀ r, r ≠ x → t.reg r = s.reg r) ∧ t.pc = s.pc + 2 ∧ SameButRegs s t) ∧
      (Completes (.andVV x y) s fun t =>
        (∀ b, (t.reg x).getLsbD b = ((s.reg x).getLsbD b && (s.reg y).getLsbD b)) ∧
        (∀ r, r ≠ x → t.reg r = s.reg r) ∧ t.pc = s.pc + 2 ∧ SameButRegs s t) ∧
      (Completes (.xorVV x y) s fun t =>
        (∀ b, (t.reg x).getLsbD b = ((s.reg x).getLsbD b ^^ (s.reg y).getLsbD b)) ∧
        (∀ r, r ≠ x → t.reg r = s.reg r) ∧ t.pc = s.pc + 2 ∧ SameButRegs s t)

/-- ADD_VV: VF ends as the carry, whatever x and y are; V[x], unless it is VF, ends as the sum mod 256 of the old values;
pc + 2; nothing else changes (43_alu.md R102; x or y = 15 is the spec's decision D13, log 17). -/
def Obligations.AddWritesSumThenCarry : Prop :=
  ∀ (s : State) (x y : Reg), Completes (.addVV x y) s fun t =>
    t.reg Reg.vf = (if 255 < (s.reg x).toNat + (s.reg y).toNat then 1 else 0) ∧
    (x ≠ Reg.vf → (t.reg x).toNat = ((s.reg x).toNat + (s.reg y).toNat) % 256) ∧
    (∀ r, r ≠ x → r ≠ Reg.vf → t.reg r = s.reg r) ∧ t.pc = s.pc + 2 ∧ SameButRegs s t

/-- SUB, the flag f = [V[x] > V[y]] written first: for x, y other than 15, VF = f and V[x] = V[x] - V[y]; for x = 15, VF
ends f - V[y]; for y = 15, VF = f and V[x] ends V[x] - f; for both, VF = 0; pc + 2; nothing else changes
(43_alu.md R103; the cases of 15 are the spec's decision D13, log 17). -/
def Obligations.SubWritesFlagThenDifference : Prop :=
  ∀ (s : State) (x y : Reg) (f : Byte), f = (if (s.reg y).toNat < (s.reg x).toNat then 1 else 0) →
    Completes (.subVV x y) s fun t =>
      (x ≠ Reg.vf → y ≠ Reg.vf → t.reg x = s.reg x - s.reg y ∧ t.reg Reg.vf = f) ∧
      (x = Reg.vf → y ≠ Reg.vf → t.reg Reg.vf = f - s.reg y) ∧
      (x ≠ Reg.vf → y = Reg.vf → t.reg x = s.reg x - f ∧ t.reg Reg.vf = f) ∧
      (x = Reg.vf → y = Reg.vf → t.reg Reg.vf = 0) ∧
      (∀ r, r ≠ x → r ≠ Reg.vf → t.reg r = s.reg r) ∧ t.pc = s.pc + 2 ∧ SameButRegs s t

/-- SUBN, the flag f = [V[y] > V[x]] written first: as SUB with the operands exchanged (43_alu.md R105; the cases of 15
are the spec's decision D13, log 17). -/
def Obligations.SubnWritesFlagThenDifference : Prop :=
  ∀ (s : State) (x y : Reg) (f : Byte), f = (if (s.reg x).toNat < (s.reg y).toNat then 1 else 0) →
    Completes (.subnVV x y) s fun t =>
      (x ≠ Reg.vf → y ≠ Reg.vf → t.reg x = s.reg y - s.reg x ∧ t.reg Reg.vf = f) ∧
      (x = Reg.vf → y ≠ Reg.vf → t.reg Reg.vf = s.reg y - f) ∧
      (x ≠ Reg.vf → y = Reg.vf → t.reg x = f - s.reg x ∧ t.reg Reg.vf = f) ∧
      (x = Reg.vf → y = Reg.vf → t.reg Reg.vf = 0) ∧
      (∀ r, r ≠ x → r ≠ Reg.vf → t.reg r = s.reg r) ∧ t.pc = s.pc + 2 ∧ SameButRegs s t

/-- SHR and SHL, whatever y is: for x other than 15, V[x] is halved (doubled mod 256) and VF is the bit shifted out; for
x = 15, VF ends 0 (ends twice its old bit 7); pc + 2; nothing else changes (43_alu.md R104, R106; x = 15 is the spec's
decision D13, log 17). -/
def Obligations.ShiftsWriteFlagThenResult : Prop :=
  ∀ (s : State) (x y : Reg),
    (Completes (.shr x y) s fun t =>
      (x ≠ Reg.vf → (t.reg x).toNat = (s.reg x).toNat / 2 ∧ (t.reg Reg.vf).toNat = (s.reg x).toNat % 2) ∧
      (x = Reg.vf → t.reg Reg.vf = 0) ∧
      (∀ r, r ≠ x → r ≠ Reg.vf → t.reg r = s.reg r) ∧ t.pc = s.pc + 2 ∧ SameButRegs s t) ∧
    (Completes (.shl x y) s fun t =>
      (x ≠ Reg.vf → (t.reg x).toNat = 2 * (s.reg x).toNat % 256 ∧ (t.reg Reg.vf).toNat = (s.reg x).toNat / 128) ∧
      (x = Reg.vf → (t.reg Reg.vf).toNat = 2 * ((s.reg x).toNat / 128)) ∧
      (∀ r, r ≠ x → r ≠ Reg.vf → t.reg r = s.reg r) ∧ t.pc = s.pc + 2 ∧ SameButRegs s t)

/-- RND: words Cxkk; V[x] becomes rnd AND kk for whatever random byte the cycle was given; pc + 2; nothing else changes
(43_alu.md R107; that the byte is an input of the cycle is the spec's decision D24, log 2). -/
def Obligations.RndMasksTheRandomByte : Prop :=
  ∀ (x : Reg) (kk : Byte), (∀ w, decode w = some (.rnd x kk) ↔ w = 0xC#4 ++ BitVec.ofFin (w := 4) x ++ kk) ∧
    ∀ s : State, Completes (.rnd x kk) s fun t =>
      (∀ b, (t.reg x).getLsbD b = (s.rnd.getLsbD b && kk.getLsbD b)) ∧ (∀ r, r ≠ x → t.reg r = s.reg r) ∧
      t.pc = s.pc + 2 ∧ SameButRegs s t

/-! ## Index register and memory -/

/-- LD_I and ADD_I_V: words Annn and Fx1E; I becomes nnn, or (I + V[x]) mod 65536 with no flag; pc + 2; nothing else
changes (44_index_memory.md R108, R109). That ADD_I_V writes no flag is DEDUCED, log 25: 93_implementation_defined.md
item 1 calls it an implementation choice. -/
def Obligations.IndexLoadAndAddWriteI : Prop :=
  (∀ nnn : BitVec 12, (∀ w, decode w = some (.ldI nnn) ↔ w = 0xA#4 ++ nnn) ∧
    ∀ s : State, Completes (.ldI nnn) s fun t => t.I.toNat = nnn.toNat ∧ t.pc = s.pc + 2 ∧ SameButI s t) ∧
  (∀ x : Reg, (∀ w, decode w = some (.addIV x) ↔ w = 0xF#4 ++ BitVec.ofFin (w := 4) x ++ 0x1E#8) ∧
    ∀ s : State, Completes (.addIV x) s fun t =>
      t.I.toNat = (s.I.toNat + (s.reg x).toNat) % 65536 ∧ t.pc = s.pc + 2 ∧ SameButI s t)

/-- LD_F_V: I becomes V[x] * 5, with V[x] not masked; pc + 2; nothing else changes (44_index_memory.md R110; V[x] above 15
is the spec's decision D16, log 20). -/
def Obligations.GlyphAddressIsFiveTimesVx : Prop :=
  ∀ (s : State) (x : Reg), Completes (.ldFV x) s fun t =>
    t.I.toNat = (s.reg x).toNat * 5 ∧ t.pc = s.pc + 2 ∧ SameButI s t

/-- LD_B_V with its three bytes in memory stores the decimal digits of V[x] at I, I + 1, I + 2; pc + 2; nothing else
changes, I included (44_index_memory.md R111; the unmasked address is the spec's decision D8, log 14). -/
def Obligations.BcdStoresThreeDigits : Prop :=
  ∀ (s : State) (x : Reg), s.I.toNat + 2 ≤ 0xFFF →
    Completes (.ldBV x) s fun t =>
      (t.mem.read s.I.toNat).toNat = (s.reg x).toNat / 100 ∧
      (t.mem.read (s.I.toNat + 1)).toNat = (s.reg x).toNat / 10 % 10 ∧
      (t.mem.read (s.I.toNat + 2)).toNat = (s.reg x).toNat % 10 ∧
      t.pc = s.pc + 2 ∧ SameButBytes s t s.I.toNat 3

/-- LD_MEM_V with its bytes in memory stores V0 to Vx at I to I + x; pc + 2; nothing else changes (44_index_memory.md
R112; I unchanged is the spec's decision D17, log 21; the unmasked address is D8, log 14). -/
def Obligations.BlockStoreWritesV0ToVx : Prop :=
  ∀ (s : State) (x : Reg), s.I.toNat + x.val ≤ 0xFFF →
    Completes (.ldMemV x) s fun t =>
      (∀ k : Reg, k ≤ x → t.mem.read (s.I.toNat + k.val) = s.reg k) ∧
      t.pc = s.pc + 2 ∧ SameButBytes s t s.I.toNat (x.val + 1)

/-- LD_V_MEM with its bytes in memory loads V0 to Vx from I to I + x and leaves the registers above x; pc + 2; nothing
else changes (44_index_memory.md R113; I unchanged is the spec's decision D17, log 21; the unmasked address is D8,
log 14). -/
def Obligations.BlockLoadReadsV0ToVx : Prop :=
  ∀ (s : State) (x : Reg), s.I.toNat + x.val ≤ 0xFFF →
    Completes (.ldVMem x) s fun t =>
      (∀ k : Reg, t.reg k = if k ≤ x then s.mem.read (s.I.toNat + k.val) else s.reg k) ∧
      t.pc = s.pc + 2 ∧ SameButRegs s t

/-- An I-based access that reaches above 0xFFF takes OutOfBounds with the larger of I and 0x1000, for each instruction
that has one (20_memory.md R55, 60_exceptions.md R120, R126; the unmasked address is the spec's decision D8, log 14; the
fault entry is decision D10, log 11). DRW with n = 0 has no address and never faults. -/
def Obligations.AccessOutsideMemoryFaults : Prop :=
  ∀ (s : State) (x y : Reg) (n : Nat),
    (0xFFF < s.I.toNat + 2 → TakesFault (.ldBV x) s (.outOfBounds (max s.I.toNat 0x1000))) ∧
    (0xFFF < s.I.toNat + x.val → TakesFault (.ldMemV x) s (.outOfBounds (max s.I.toNat 0x1000)) ∧
      TakesFault (.ldVMem x) s (.outOfBounds (max s.I.toNat 0x1000))) ∧
    (0 < n → 0xFFF < s.I.toNat + (n - 1) → TakesFault (.drw x y n) s (.outOfBounds (max s.I.toNat 0x1000)))

/-- A store is seen by the next fetch: LD_MEM_V with x = 1 and I = pc + 2 makes V0, V1 the next word fetched
(20_memory.md R65, 70_reset_and_hazards.md R152: the spec's decision D19, log 22). -/
def Obligations.StoredWordIsFetchedNext : Prop :=
  ∀ (s t : State), s.pc.toNat ≤ 0xFFC → s.I = s.pc + 2 → exec (.ldMemV 1) s = .next t →
    t.pc = s.I ∧ t.fetchWord = s.reg 0 ++ s.reg 1

/-! ## Timers and input -/

/-- LD_V_DT and LD_DT_V: words Fx07 and Fx15; V[x] becomes DT, or DT becomes V[x]; pc + 2; nothing else changes
(45_timers_input.md R114, R116). -/
def Obligations.DelayTimerMovesCopyTheByte : Prop :=
  ∀ x : Reg,
    (∀ w, decode w = some (.ldVDT x) ↔ w = 0xF#4 ++ BitVec.ofFin (w := 4) x ++ 0x07#8) ∧
    (∀ w, decode w = some (.ldDTV x) ↔ w = 0xF#4 ++ BitVec.ofFin (w := 4) x ++ 0x15#8) ∧
    ∀ s : State,
      (Completes (.ldVDT x) s fun t => (∀ r, t.reg r = if r = x then s.DT else s.reg r) ∧ t.pc = s.pc + 2 ∧
        SameButRegs s t) ∧
      (Completes (.ldDTV x) s fun t => t.DT = s.reg x ∧ t.ST = s.ST ∧ t.pc = s.pc + 2 ∧
        SameRegs s t ∧ SameI s t ∧ SameStack s t ∧ SameDisplay s t ∧ SameMemory s t ∧ SameRun s t)

/-- LD_ST_V: words Fx18; ST becomes V[x], and the output sound_on is on exactly when V[x] is not 0; pc + 2; nothing else
changes (45_timers_input.md R117; the output sound_on is 60_exceptions.md R138, the spec's decision D26). -/
def Obligations.SoundTimerLoadCopiesTheByte : Prop :=
  ∀ x : Reg, (∀ w, decode w = some (.ldSTV x) ↔ w = 0xF#4 ++ BitVec.ofFin (w := 4) x ++ 0x18#8) ∧
    ∀ s : State, Completes (.ldSTV x) s fun t => t.ST = s.reg x ∧ t.DT = s.DT ∧ t.pc = s.pc + 2 ∧
      (t.soundOn = true ↔ s.reg x ≠ 0) ∧
      SameRegs s t ∧ SameI s t ∧ SameStack s t ∧ SameDisplay s t ∧ SameMemory s t ∧ SameRun s t

/-- LD_V_K with a key pressed: V[x] becomes the lowest-numbered pressed key, pc + 2, nothing else changes
(45_timers_input.md R115; level and lowest key are the spec's decision D14, log 18). -/
def Obligations.KeyWaitTakesTheLowestPressedKey : Prop :=
  ∀ (s : State) (x : Reg) (k : Fin 16), s.keys.getLsbD k.val = true → (∀ j, j < k.val → s.keys.getLsbD j = false) →
    Completes (.ldVK x) s fun t =>
      (t.reg x).toNat = k.val ∧ (∀ r, r ≠ x → t.reg r = s.reg r) ∧ t.pc = s.pc + 2 ∧ SameButRegs s t

/-- LD_V_K with no key pressed returns WAITING and commits nothing, pc included (45_timers_input.md R115, the spec's
decision D14, log 18; the status field is log 12). -/
def Obligations.KeyWaitCommitsNothing : Prop :=
  ∀ (s : State) (x : Reg), s.keys = 0 → exec (.ldVK x) s = .next { s with status := some .waiting }

/-! ## End of a run -/

/-- At a jump to itself every Cycle commits and is a normal end: it writes pc again and changes nothing of the block but
that its inputs are sampled, Load's slot is closed and its status is OK (70_reset_and_hazards.md R155, the spec's decision
D29, log 30). -/
def Obligations.SelfJumpChangesNothing : Prop :=
  ∀ (s : State) (keys : BitVec 16) (rnd : Byte), AtSelfJump s → s.nextTransaction = .cycle keys rnd →
    ∃ t, step s = .next t ∧ t.pc = s.pc ∧ NormalEnd s t ∧ SameRegs s t ∧ SameI s t ∧ SameStack s t ∧ SameTimers s t ∧
      SameDisplay s t ∧ SameMemory s t

/-! ## The schedule -/

/-- Each step takes the host's next transaction, one at a time and in its order, and no instruction touches what is still to
come: the first of the list while there is one; beyond it a Tick or a Cycle with its inputs, by free values of a number no
earlier step has taken, so that every interleaving without end is admitted (60_exceptions.md R137, the spec's decision D20;
the list, the free values and a Reset keeping them are the model's, logs 1, 2, 27). -/
def Obligations.EachStepTakesTheNextTransaction : Prop :=
  (∀ (s : State) (tr : Transaction) (rest : List Transaction), s.host = tr :: rest → s.nextTransaction = tr) ∧
  (∀ s : State, s.host = [] → s.nextTransaction =
    if Config.freeTick s.draws = true then .tick else .cycle (Config.freeKeys s.draws) (Config.freeRnd s.draws)) ∧
  ∀ s t : State, step s = .next t →
    t.host = s.host.tail ∧ t.draws = if s.host = [] then s.draws + 1 else s.draws
end

