-- ==== Sys2Proof/Laws/Canvas.lean ====
section
/-! SUPPORT. What drawing does to a canvas: it toggles a set of pixels, each once, and reports whether one of them was set.
The sets of a bit, a byte and a list of rows are put together by one composition lemma. -/

namespace Sys2Proof.Machine

/-- `k'` is `k` with exactly the pixels of `C` toggled, once each, and a collision noted where one of them was set. -/
structure Canvas.Toggles (k k' : Canvas) (C : Fin 64 → Fin 32 → Prop) : Prop where
  pixel : ∀ d r, k'.fb.pixel d r = true ↔ ¬ (k.fb.pixel d r = true ↔ C d r)
  collision : k'.collision = true ↔ k.collision = true ∨ ∃ d r, k.fb.pixel d r = true ∧ C d r

/-- The set toggled may be said in another way. -/
theorem Canvas.Toggles.congr {k k' : Canvas} {C D : Fin 64 → Fin 32 → Prop} (h : Canvas.Toggles k k' C)
    (e : ∀ d r, C d r ↔ D d r) : Canvas.Toggles k k' D := by
  have : C = D := funext fun d => funext fun r => propext (e d r)
  exact this ▸ h

/-- Toggling nothing. -/
theorem Canvas.Toggles.refl (k : Canvas) : Canvas.Toggles k k (fun _ _ => False) :=
  ⟨fun d r => by simp, by simp⟩

/-- Toggling one set of pixels and then another, disjoint from it, toggles both. -/
theorem Canvas.Toggles.trans {k k' k'' : Canvas} {C D : Fin 64 → Fin 32 → Prop}
    (h : Canvas.Toggles k k' C) (h' : Canvas.Toggles k' k'' D) (disjoint : ∀ d r, ¬ (C d r ∧ D d r)) :
    Canvas.Toggles k k'' (fun d r => C d r ∨ D d r) := by
  refine ⟨fun d r => ?_, ?_⟩
  · have h1 := h.pixel d r
    have h2 := h'.pixel d r
    have h3 := disjoint d r
    tauto
  · rw [h'.collision, h.collision]
    have same : ∀ d r, D d r → (k'.fb.pixel d r = true ↔ k.fb.pixel d r = true) := fun d r hd => by
      have h1 := h.pixel d r
      have h3 := disjoint d r
      tauto
    constructor
    · rintro ((hc | ⟨d, r, hp, hC⟩) | ⟨d, r, hp, hD⟩)
      · exact .inl hc
      · exact .inr ⟨d, r, hp, .inl hC⟩
      · exact .inr ⟨d, r, (same d r hD).mp hp, .inr hD⟩
    · rintro (hc | ⟨d, r, hp, hC | hD⟩)
      · exact .inl (.inl hc)
      · exact .inl (.inr ⟨d, r, hp, hC⟩)
      · exact .inr ⟨d, r, (same d r hD).mpr hp, hD⟩

/-- One bit of a sprite toggles its pixel if it is 1. -/
theorem Canvas.drawBit_toggles (x0 : Nat) (q : Fin 32) (b : Byte) (k : Canvas) (c : Nat) :
    Canvas.Toggles k (Canvas.drawBit x0 q b k c)
      (fun d r => r = q ∧ d.val = (x0 + c) % 64 ∧ b.getLsbD (7 - c) = true) := by
  have hd : ∀ d : Fin 64, d = Fin.ofNat 64 (x0 + c) ↔ d.val = (x0 + c) % 64 := fun d => Fin.ext_iff
  refine ⟨fun d r => ?_, ?_⟩
  · rw [Canvas.drawBit_pixel]
    by_cases h1 : d = Fin.ofNat 64 (x0 + c) <;> by_cases h2 : r = q <;> cases h3 : b.getLsbD (7 - c) <;>
      cases h4 : k.fb.pixel d r <;> simp_all
  · rw [Canvas.drawBit_collision]
    simp only [Bool.or_eq_true, Bool.and_eq_true]
    refine or_congr_right ⟨fun ⟨hb, hp⟩ => ⟨_, q, hp, rfl, rfl, hb⟩, ?_⟩
    rintro ⟨d, r, hp, rfl, hd', hb⟩
    exact ⟨hb, (hd d).mpr hd' ▸ hp⟩

/-- The first `m` bits of a sprite byte toggle the pixels of those that are 1. -/
theorem Canvas.drawBits_toggles (x0 : Nat) (q : Fin 32) (b : Byte) (k : Canvas) {m : Nat} (hm : m ≤ 8) :
    Canvas.Toggles k ((List.range m).foldl (Canvas.drawBit x0 q b) k)
      (fun d r => r = q ∧ ∃ j, j < m ∧ d.val = (x0 + j) % 64 ∧ b.getLsbD (7 - j) = true) := by
  induction m with
  | zero => exact (Canvas.Toggles.refl k).congr (by simp)
  | succ m ih =>
    rw [List.range_succ, List.foldl_append]
    refine ((ih (by omega)).trans (Canvas.drawBit_toggles x0 q b _ m) ?_).congr fun d r => ?_
    · rintro d r ⟨⟨_, j, hj, hd, _⟩, _, hd', _⟩
      omega
    · constructor
      · rintro (⟨hr, j, hj, h⟩ | ⟨hr, h⟩)
        · exact ⟨hr, j, by omega, h⟩
        · exact ⟨hr, m, by omega, h⟩
      · rintro ⟨hr, j, hj, h⟩
        rcases Nat.lt_succ_iff_lt_or_eq.mp hj with hj | rfl
        · exact .inl ⟨hr, j, hj, h⟩
        · exact .inr ⟨hr, h⟩

/-- A sprite byte toggles the pixels of its 1 bits, bit `7 - j` at column `(x0 + j) mod 64`. -/
theorem Canvas.drawByte_toggles (x0 : Nat) (q : Fin 32) (b : Byte) (k : Canvas) :
    Canvas.Toggles k (Canvas.drawByte x0 q b k)
      (fun d r => r = q ∧ ∃ j, j < 8 ∧ d.val = (x0 + j) % 64 ∧ b.getLsbD (7 - j) = true) :=
  Canvas.drawBits_toggles x0 q b k (le_refl 8)

/-- Sprite bytes, at most one per row of the framebuffer, toggle the pixels of their 1 bits, byte `i` in row
`(y0 + i) mod 32`. -/
theorem Canvas.drawRows_toggles (x0 y0 : Nat) (bs : List Byte) (k : Canvas) (h : bs.length ≤ 32) :
    Canvas.Toggles k (Canvas.drawRows x0 y0 bs k)
      (fun d r => ∃ i j, ∃ hi : i < bs.length, j < 8 ∧ d.val = (x0 + j) % 64 ∧ r.val = (y0 + i) % 32 ∧
        bs[i].getLsbD (7 - j) = true) := by
  induction bs generalizing y0 k with
  | nil => exact (Canvas.Toggles.refl k).congr (by simp)
  | cons b bs ih =>
    simp only [List.length_cons] at h
    have hq : ∀ r : Fin 32, r = Fin.ofNat 32 y0 ↔ r.val = y0 % 32 := fun r => Fin.ext_iff
    refine ((Canvas.drawByte_toggles x0 (Fin.ofNat 32 y0) b k).trans (ih (y0 + 1) _ (by omega)) ?_).congr
      fun d r => ?_
    · rintro d r ⟨⟨hr, _⟩, i, _, hi, _, _, hr', _⟩
      rw [hq] at hr
      omega
    · constructor
      · rintro (⟨hr, j, hj, hd, hb⟩ | ⟨i, j, hi, hj, hd, hr, hb⟩)
        · exact ⟨0, j, by simp, hj, hd, (hq r).mp hr, hb⟩
        · exact ⟨i + 1, j, by simpa using hi, hj, hd, by omega, by simpa using hb⟩
      · rintro ⟨i, j, hi, hj, hd, hr, hb⟩
        cases i with
        | zero => exact .inl ⟨(hq r).mpr hr, j, hj, hd, hb⟩
        | succ i => exact .inr ⟨i, j, by simpa using hi, hj, hd, by omega, by simpa using hb⟩

end Sys2Proof.Machine
end

