-- ==== Sys2Proof/Laws/Exec.lean ====
section
/-! SUPPORT. What a step can do, said once: the state a transaction is taken from, the cycle at the head of the schedule,
and the three ways an instruction ends. -/

namespace Sys2Proof.Machine

/-! ### Taking a transaction off the schedule changes nothing of the block -/

@[simp] theorem State.afterTaking_V (s : State) : s.afterTaking.V = s.V := by unfold State.afterTaking; split <;> rfl
@[simp] theorem State.afterTaking_I (s : State) : s.afterTaking.I = s.I := by unfold State.afterTaking; split <;> rfl
@[simp] theorem State.afterTaking_pc (s : State) : s.afterTaking.pc = s.pc := by unfold State.afterTaking; split <;> rfl
@[simp] theorem State.afterTaking_sp (s : State) : s.afterTaking.sp = s.sp := by unfold State.afterTaking; split <;> rfl
@[simp] theorem State.afterTaking_stack (s : State) : s.afterTaking.stack = s.stack := by
  unfold State.afterTaking; split <;> rfl
@[simp] theorem State.afterTaking_DT (s : State) : s.afterTaking.DT = s.DT := by unfold State.afterTaking; split <;> rfl
@[simp] theorem State.afterTaking_ST (s : State) : s.afterTaking.ST = s.ST := by unfold State.afterTaking; split <;> rfl
@[simp] theorem State.afterTaking_fb (s : State) : s.afterTaking.fb = s.fb := by unfold State.afterTaking; split <;> rfl
@[simp] theorem State.afterTaking_runState (s : State) : s.afterTaking.runState = s.runState := by
  unfold State.afterTaking; split <;> rfl
@[simp] theorem State.afterTaking_mem (s : State) : s.afterTaking.mem = s.mem := by
  unfold State.afterTaking; split <;> rfl
@[simp] theorem State.afterTaking_keys (s : State) : s.afterTaking.keys = s.keys := by
  unfold State.afterTaking; split <;> rfl
@[simp] theorem State.afterTaking_rnd (s : State) : s.afterTaking.rnd = s.rnd := by
  unfold State.afterTaking; split <;> rfl
@[simp] theorem State.afterTaking_loadOpen (s : State) : s.afterTaking.loadOpen = s.loadOpen := by
  unfold State.afterTaking; split <;> rfl
@[simp] theorem State.afterTaking_status (s : State) : s.afterTaking.status = s.status := by
  unfold State.afterTaking; split <;> rfl

@[simp] theorem State.afterTaking_host (s : State) : s.afterTaking.host = s.host.tail := by
  unfold State.afterTaking; split <;> simp [*]
theorem State.afterTaking_draws (s : State) :
    s.afterTaking.draws = if s.host = [] then s.draws + 1 else s.draws := by
  unfold State.afterTaking; split <;> simp [*]

/-- A step that takes a Tick ticks. -/
theorem step_of_tick {s : State} (h : s.nextTransaction = .tick) : step s = .next s.afterTaking.tick := by
  simp [step, h, transact]

/-- A step that takes a Cycle runs it on the state with its inputs sampled. -/
theorem step_of_cycle {s : State} {keys : BitVec 16} {rnd : Byte} (h : s.nextTransaction = .cycle keys rnd) :
    step s = runCycle (s.afterTaking.sample keys rnd) := by simp [step, h, transact]

/-- A timer's part of a tick, as numbers. -/
theorem countDown_toNat (t : Byte) : (countDown t).toNat = t.toNat - 1 := by
  unfold countDown
  split
  · rw [BitVec.toNat_sub]; have := t.isLt; simp; omega
  · omega

/-! ### The ways an instruction ends -/

/-- An instruction takes a fault from the state before it, waits with no key pressed, or commits a state whose run state
and host's side are as before. -/
inductive EndsAs (s : State) : Result → Prop where
  | fault (c : FaultCause) : EndsAs s (.next (s.raise c))
  | wait (h : s.firstPressedKey = none) : EndsAs s (.next s.waiting)
  | commit (u : State) (h : u.runState = s.runState) (hh : u.host = s.host) (hd : u.draws = s.draws) :
      EndsAs s (.next u.committed)

theorem endsAs_withAccess (s : State) (n : Nat) (done : State) (h : done.runState = s.runState)
    (hh : done.host = s.host) (hd : done.draws = s.draws) : EndsAs s (.next (s.withAccess n done)) := by
  rcases State.withAccess_cases s n done with ⟨_, e⟩ | ⟨a, _, _, e⟩ <;> rw [e]
  · exact .commit done h hh hd
  · exact .fault _

theorem endsAs_withKeyIndex (s : State) (k : Byte) (done : State) (h : done.runState = s.runState)
    (hh : done.host = s.host) (hd : done.draws = s.draws) : EndsAs s (.next (s.withKeyIndex k done)) := by
  rcases State.withKeyIndex_cases s k done with ⟨_, e⟩ | ⟨_, e⟩ <;> rw [e]
  · exact .commit done h hh hd
  · exact .fault _

/-- Every instruction ends in one of the three ways. -/
theorem exec_endsAs (i : Instr) (s : State) : EndsAs s (exec i s) := by
  cases i <;> simp only [exec]
  case ret => unfold execRet; split <;> first | exact .fault _ | exact .commit _ rfl rfl rfl
  case call => unfold execCall; split <;> first | exact .fault _ | exact .commit _ rfl rfl rfl
  case drw => exact endsAs_withAccess s _ _ rfl rfl rfl
  case skp => exact endsAs_withKeyIndex s _ _ (by simp) (by simp) (by simp)
  case sknp => exact endsAs_withKeyIndex s _ _ (by simp) (by simp) (by simp)
  case ldVK => unfold execLdVK; split <;> first | exact .wait ‹_› | exact .commit _ rfl rfl rfl
  case ldBV => exact endsAs_withAccess s _ _ rfl rfl rfl
  case ldMemV => exact endsAs_withAccess s _ _ rfl rfl rfl
  case ldVMem => exact endsAs_withAccess s _ _ (by simp) (by simp) (by simp)
  all_goals exact .commit _ (by first | rfl | simp) (by first | rfl | simp) (by first | rfl | simp)

/-- No instruction touches the host's side. -/
theorem exec_host {i : Instr} {s t : State} (h : exec i s = .next t) : t.host = s.host ∧ t.draws = s.draws := by
  have e := exec_endsAs i s
  rw [h] at e
  cases e with
  | fault c => exact ⟨rfl, rfl⟩
  | wait _ => exact ⟨rfl, rfl⟩
  | commit u _ hh hd => exact ⟨hh, hd⟩

end Sys2Proof.Machine
end

