-- ==== Sys2Proof/Laws/PerInstr.lean ====
section
/-! SUPPORT. Per instruction: its encoding matches the mask and pattern of its own row of spec/opcode_table.json. -/

namespace Sys2Proof.Laws.EncodesToRow

/-- Some row of the table with the instruction's mnemonic accepts its encoding (30_encoding.md R75). -/
def Statement (i : Instr) : Prop :=
  ∃ row, row ∈ opcodeTable ∧ row.mnemonic = i.mnemonic ∧ row.accepts (encode i) = true

/-! ### A format under each mask of the table -/

theorem formatNNN_mask (op : BitVec 4) (nnn : BitVec 12) :
    formatNNN op nnn &&& 0xF000#16 = formatNNN op 0 := by
  apply BitVec.eq_of_getLsbD_eq; intro i hi
  rw [BitVec.getLsbD_and, getLsbD_formatNNN, getLsbD_formatNNN]
  interval_cases i <;> simp

theorem formatXKK_opMask (op : BitVec 4) (x : Reg) (kk : Byte) :
    formatXKK op x kk &&& 0xF000#16 = formatXKK op 0 0 := by
  apply BitVec.eq_of_getLsbD_eq; intro i hi
  rw [BitVec.getLsbD_and, getLsbD_formatXKK, getLsbD_formatXKK]
  interval_cases i <;> simp

theorem formatXKK_selectorMask (op : BitVec 4) (x : Reg) (kk : Byte) :
    formatXKK op x kk &&& 0xF0FF#16 = formatXKK op 0 kk := by
  apply BitVec.eq_of_getLsbD_eq; intro i hi
  rw [BitVec.getLsbD_and, getLsbD_formatXKK, getLsbD_formatXKK]
  interval_cases i <;> simp

theorem formatXYN_opMask (op : BitVec 4) (x y : Reg) (n : BitVec 4) :
    formatXYN op x y n &&& 0xF000#16 = formatXYN op 0 0 0 := by
  apply BitVec.eq_of_getLsbD_eq; intro i hi
  rw [BitVec.getLsbD_and, getLsbD_formatXYN, getLsbD_formatXYN]
  interval_cases i <;> simp

theorem formatXYN_selectorMask (op : BitVec 4) (x y : Reg) (n : BitVec 4) :
    formatXYN op x y n &&& 0xF00F#16 = formatXYN op 0 0 n := by
  apply BitVec.eq_of_getLsbD_eq; intro i hi
  rw [BitVec.getLsbD_and, getLsbD_formatXYN, getLsbD_formatXYN]
  interval_cases i <;> simp

/-- A row of the table whose pattern is the masked encoding. -/
theorem of_mask {i : Instr} (row : TableRow) (mem : row ∈ opcodeTable) (name : row.mnemonic = i.mnemonic)
    {p : Word} (masked : encode i &&& row.mask = p) (pattern : p = row.pattern) : Statement i :=
  ⟨row, mem, name, by simp [TableRow.accepts, masked, pattern]⟩

/-! ### The instructions -/

theorem cls : Statement .cls :=
  of_mask ⟨"CLS", 0x00E0, 0xFFFF⟩ (by decide) rfl rfl (by decide)
theorem ret : Statement .ret :=
  of_mask ⟨"RET", 0x00EE, 0xFFFF⟩ (by decide) rfl rfl (by decide)
theorem jp (nnn : BitVec 12) : Statement (.jp nnn) :=
  of_mask ⟨"JP", 0x1000, 0xF000⟩ (by decide) rfl (formatNNN_mask _ _) (by decide)
theorem call (nnn : BitVec 12) : Statement (.call nnn) :=
  of_mask ⟨"CALL", 0x2000, 0xF000⟩ (by decide) rfl (formatNNN_mask _ _) (by decide)
theorem seVB (x : Reg) (kk : Byte) : Statement (.seVB x kk) :=
  of_mask ⟨"SE_VB", 0x3000, 0xF000⟩ (by decide) rfl (formatXKK_opMask _ _ _) (by decide)
theorem sneVB (x : Reg) (kk : Byte) : Statement (.sneVB x kk) :=
  of_mask ⟨"SNE_VB", 0x4000, 0xF000⟩ (by decide) rfl (formatXKK_opMask _ _ _) (by decide)
theorem seVV (x : Reg) (y : Reg) : Statement (.seVV x y) :=
  of_mask ⟨"SE_VV", 0x5000, 0xF00F⟩ (by decide) rfl (formatXYN_selectorMask _ _ _ _) (by decide)
theorem ldVB (x : Reg) (kk : Byte) : Statement (.ldVB x kk) :=
  of_mask ⟨"LD_VB", 0x6000, 0xF000⟩ (by decide) rfl (formatXKK_opMask _ _ _) (by decide)
theorem addVB (x : Reg) (kk : Byte) : Statement (.addVB x kk) :=
  of_mask ⟨"ADD_VB", 0x7000, 0xF000⟩ (by decide) rfl (formatXKK_opMask _ _ _) (by decide)
theorem ldVV (x : Reg) (y : Reg) : Statement (.ldVV x y) :=
  of_mask ⟨"LD_VV", 0x8000, 0xF00F⟩ (by decide) rfl (formatXYN_selectorMask _ _ _ _) (by decide)
theorem orVV (x : Reg) (y : Reg) : Statement (.orVV x y) :=
  of_mask ⟨"OR", 0x8001, 0xF00F⟩ (by decide) rfl (formatXYN_selectorMask _ _ _ _) (by decide)
theorem andVV (x : Reg) (y : Reg) : Statement (.andVV x y) :=
  of_mask ⟨"AND", 0x8002, 0xF00F⟩ (by decide) rfl (formatXYN_selectorMask _ _ _ _) (by decide)
theorem xorVV (x : Reg) (y : Reg) : Statement (.xorVV x y) :=
  of_mask ⟨"XOR", 0x8003, 0xF00F⟩ (by decide) rfl (formatXYN_selectorMask _ _ _ _) (by decide)
theorem addVV (x : Reg) (y : Reg) : Statement (.addVV x y) :=
  of_mask ⟨"ADD_VV", 0x8004, 0xF00F⟩ (by decide) rfl (formatXYN_selectorMask _ _ _ _) (by decide)
theorem subVV (x : Reg) (y : Reg) : Statement (.subVV x y) :=
  of_mask ⟨"SUB", 0x8005, 0xF00F⟩ (by decide) rfl (formatXYN_selectorMask _ _ _ _) (by decide)
theorem shr (x : Reg) (y : Reg) : Statement (.shr x y) :=
  of_mask ⟨"SHR", 0x8006, 0xF00F⟩ (by decide) rfl (formatXYN_selectorMask _ _ _ _) (by decide)
theorem subnVV (x : Reg) (y : Reg) : Statement (.subnVV x y) :=
  of_mask ⟨"SUBN", 0x8007, 0xF00F⟩ (by decide) rfl (formatXYN_selectorMask _ _ _ _) (by decide)
theorem shl (x : Reg) (y : Reg) : Statement (.shl x y) :=
  of_mask ⟨"SHL", 0x800E, 0xF00F⟩ (by decide) rfl (formatXYN_selectorMask _ _ _ _) (by decide)
theorem sneVV (x : Reg) (y : Reg) : Statement (.sneVV x y) :=
  of_mask ⟨"SNE_VV", 0x9000, 0xF00F⟩ (by decide) rfl (formatXYN_selectorMask _ _ _ _) (by decide)
theorem ldI (nnn : BitVec 12) : Statement (.ldI nnn) :=
  of_mask ⟨"LD_I", 0xA000, 0xF000⟩ (by decide) rfl (formatNNN_mask _ _) (by decide)
theorem jpV0 (nnn : BitVec 12) : Statement (.jpV0 nnn) :=
  of_mask ⟨"JP_V0", 0xB000, 0xF000⟩ (by decide) rfl (formatNNN_mask _ _) (by decide)
theorem rnd (x : Reg) (kk : Byte) : Statement (.rnd x kk) :=
  of_mask ⟨"RND", 0xC000, 0xF000⟩ (by decide) rfl (formatXKK_opMask _ _ _) (by decide)
theorem drw (x : Reg) (y : Reg) (n : Nat) : Statement (.drw x y n) :=
  of_mask ⟨"DRW", 0xD000, 0xF000⟩ (by decide) rfl (formatXYN_opMask _ _ _ _) (by decide)
theorem skp (x : Reg) : Statement (.skp x) :=
  of_mask ⟨"SKP", 0xE09E, 0xF0FF⟩ (by decide) rfl (formatXKK_selectorMask _ _ _) (by decide)
theorem sknp (x : Reg) : Statement (.sknp x) :=
  of_mask ⟨"SKNP", 0xE0A1, 0xF0FF⟩ (by decide) rfl (formatXKK_selectorMask _ _ _) (by decide)
theorem ldVDT (x : Reg) : Statement (.ldVDT x) :=
  of_mask ⟨"LD_V_DT", 0xF007, 0xF0FF⟩ (by decide) rfl (formatXKK_selectorMask _ _ _) (by decide)
theorem ldVK (x : Reg) : Statement (.ldVK x) :=
  of_mask ⟨"LD_V_K", 0xF00A, 0xF0FF⟩ (by decide) rfl (formatXKK_selectorMask _ _ _) (by decide)
theorem ldDTV (x : Reg) : Statement (.ldDTV x) :=
  of_mask ⟨"LD_DT_V", 0xF015, 0xF0FF⟩ (by decide) rfl (formatXKK_selectorMask _ _ _) (by decide)
theorem ldSTV (x : Reg) : Statement (.ldSTV x) :=
  of_mask ⟨"LD_ST_V", 0xF018, 0xF0FF⟩ (by decide) rfl (formatXKK_selectorMask _ _ _) (by decide)
theorem addIV (x : Reg) : Statement (.addIV x) :=
  of_mask ⟨"ADD_I_V", 0xF01E, 0xF0FF⟩ (by decide) rfl (formatXKK_selectorMask _ _ _) (by decide)
theorem ldFV (x : Reg) : Statement (.ldFV x) :=
  of_mask ⟨"LD_F_V", 0xF029, 0xF0FF⟩ (by decide) rfl (formatXKK_selectorMask _ _ _) (by decide)
theorem ldBV (x : Reg) : Statement (.ldBV x) :=
  of_mask ⟨"LD_B_V", 0xF033, 0xF0FF⟩ (by decide) rfl (formatXKK_selectorMask _ _ _) (by decide)
theorem ldMemV (x : Reg) : Statement (.ldMemV x) :=
  of_mask ⟨"LD_MEM_V", 0xF055, 0xF0FF⟩ (by decide) rfl (formatXKK_selectorMask _ _ _) (by decide)
theorem ldVMem (x : Reg) : Statement (.ldVMem x) :=
  of_mask ⟨"LD_V_MEM", 0xF065, 0xF0FF⟩ (by decide) rfl (formatXKK_selectorMask _ _ _) (by decide)

end Sys2Proof.Laws.EncodesToRow
end

