-- ==== Sys2Proof/Tests/Slice0.lean ====
section
/-! SUPPORT. The model's own tests: the WellFormed smoke test, words decoded as the spec writes them out, single steps with
the results of spec/95_test_vectors.md (its vector is named in each test), and for every statement with hypotheses a
state and operands that meet them. -/

namespace Sys2Proof.Tests

open Sys2Proof.Machine

/-! ## WellFormed -/

theorem test_wellFormed_refuses_count_16 : (Instr.drw 0 0 16).wellFormed = false := by decide
theorem test_wellFormed_accepts_count_15 : (Instr.drw 0 0 15).wellFormed = true := by decide

/-! ## Decode: one word of every row, bit by bit from its pattern (30_encoding.md R74, opcode_table.json) -/

theorem test_decode_display :
    decode 0b0000000011100000#16 = some .cls ∧ decode 0b1101101001010111#16 = some (.drw 10 5 7) := by decide

theorem test_decode_control :
    decode 0b0000000011101110#16 = some .ret ∧ decode 0b0001100000000001#16 = some (.jp 0x801) ∧
    decode 0b0010010000100001#16 = some (.call 0x421) ∧ decode 0b1011111111111110#16 = some (.jpV0 0xFFE) := by decide

theorem test_decode_skips :
    decode 0b0011000110000001#16 = some (.seVB 1 0x81) ∧ decode 0b0100111100000010#16 = some (.sneVB 15 2) ∧
    decode 0b0101001001010000#16 = some (.seVV 2 5) ∧ decode 0b1001110000110000#16 = some (.sneVV 12 3) ∧
    decode 0b1110011110011110#16 = some (.skp 7) ∧ decode 0b1110100010100001#16 = some (.sknp 8) := by decide

theorem test_decode_alu :
    decode 0b0110101000000010#16 = some (.ldVB 10 2) ∧ decode 0b0111000111111111#16 = some (.addVB 1 0xFF) ∧
    decode 0b1000001111110000#16 = some (.ldVV 3 15) ∧ decode 0b1000000100100001#16 = some (.orVV 1 2) ∧
    decode 0b1000010010000010#16 = some (.andVV 4 8) ∧ decode 0b1000111000010011#16 = some (.xorVV 14 1) ∧
    decode 0b1000000000010100#16 = some (.addVV 0 1) ∧ decode 0b1000000100100101#16 = some (.subVV 1 2) ∧
    decode 0b1000011000000110#16 = some (.shr 6 0) ∧ decode 0b1000100110000111#16 = some (.subnVV 9 8) ∧
    decode 0b1000011010101110#16 = some (.shl 6 10) ∧ decode 0b1100001100001111#16 = some (.rnd 3 0x0F) := by decide

theorem test_decode_index_memory :
    decode 0b1010001100000000#16 = some (.ldI 0x300) ∧ decode 0b1111001000011110#16 = some (.addIV 2) ∧
    decode 0b1111110100101001#16 = some (.ldFV 13) ∧ decode 0b1111000100110011#16 = some (.ldBV 1) ∧
    decode 0b1111101101010101#16 = some (.ldMemV 11) ∧ decode 0b1111111101100101#16 = some (.ldVMem 15) := by decide

theorem test_decode_timers_input :
    decode 0b1111010100000111#16 = some (.ldVDT 5) ∧ decode 0b1111001100001010#16 = some (.ldVK 3) ∧
    decode 0b1111010000010101#16 = some (.ldDTV 4) ∧ decode 0b1111100100011000#16 = some (.ldSTV 9) := by decide

/-- Vectors F1 to F5 and S6: illegal words. -/
theorem test_decode_rejects :
    [0x0000#16, 0x00E1, 0x0AE0, 0x0123, 0x5251, 0x8008, 0x800F, 0x800D, 0xE09F, 0xE0A2, 0xF000, 0xF0FF, 0xF01F].map decode =
      List.replicate 13 none := by decide

theorem test_decodeBytes_big_endian : decodeBytes [0x6A, 0x02, 0x99] = .instr (.ldVB 10 2) [0x99] := by decide
theorem test_decodeBytes_truncated : decodeBytes [0x6A] = .rejected .truncated := by decide

/-! ## Single steps (spec/95_test_vectors.md) -/

/-- One step of a state with a word at its pc, seen through `f`. -/
def run (s : State) (w : Nat) {α : Type} (f : State → α) : Option α :=
  match step (s.withFetchWord 16 w) with
  | .next t => some (f t)
  | _ => none

/-- The reset state with V1 and V2. -/
def v12 (a b : Byte) : State := (State.reset.setReg 1 a).setReg 2 b

/-- The reset state with given keys and random byte for the next cycle. -/
def inputs (keys : BitVec 16) (rnd : Byte) : State := { State.reset with host := [.cycle keys rnd] }

/-- V1 and VF. -/
def v1f (t : State) : Byte × Byte := (t.reg 1, t.reg 15)

/-- The pixels of a row that are set, by column. -/
def rowPixels (r : Fin 32) (t : State) : List (Fin 64) := (List.finRange 64).filter (fun c => t.fb.pixel c r)

/-- Vector D1. -/
theorem test_cls : run { State.reset with fb := State.reset.fb.toggle 5 7 } 0x00E0
    (fun t => (t.fb.pixel 5 7, t.pc)) = some (false, 0x202) := by decide

/-- Vector D3: the glyph at (62, 30) wraps in both directions. -/
theorem test_drw_wraps : run { (v12 0x3E 0x1E) with I := 0 } 0xD125
    (fun t => (rowPixels 30 t, rowPixels 31 t, rowPixels 2 t)) =
      some ([0, 1, 62, 63], [1, 62], [0, 1, 62, 63]) := by decide

/-- Vector D10: a set pixel is turned off and VF reports it. -/
theorem test_drw_collision : run { State.reset with fb := State.reset.fb.toggle 3 0 } 0xD011
    (fun t => (rowPixels 0 t, t.reg 15)) = some ([0, 1, 2], 1) := by decide

/-- Vector T6. -/
theorem test_ret : run { State.reset with sp := some 0, stack := State.reset.stack.set 0 0x206 } 0x00EE
    (fun t => (t.pc, t.sp, t.stack[0])) = some (0x206, none, 0x206) := by decide
/-- Vector T7. -/
theorem test_ret_underflow : run State.reset 0x00EE (fun t => (t.runState, t.pc)) =
    some (.halted ⟨.stackUnderflow, 0x200⟩, 0x200) := by decide

/-- Vector T1. -/
theorem test_jp : run State.reset 0x1204 State.pc = some 0x204 := by decide

/-- Vector T10. -/
theorem test_call : run { State.reset with pc := 0xFFE, sp := some 14 } 0x2400
    (fun t => (t.pc, t.sp, t.stack[15])) = some (0x400, some 15, 0x1000) := by decide
/-- Vector T5. -/
theorem test_call_overflow : run { State.reset with sp := some 15 } 0x2300 (fun t => (t.runState, t.sp)) =
    some (.halted ⟨.stackOverflow, 0x200⟩, some 15) := by decide

/-- Vector T9. -/
theorem test_jpV0 : run (State.reset.setReg 0 0xFF) 0xBFFF State.pc = some 0x10FE := by decide

/-- Vectors S1, S2. -/
theorem test_seVB : (run (v12 0 0) 0x3100 State.pc, run (v12 4 0) 0x3100 State.pc) = (some 0x204, some 0x202) := by decide
/-- Vectors S3, S4. -/
theorem test_sneVB : (run (State.reset.setReg 3 0x10) 0x4311 State.pc, run (State.reset.setReg 3 0x10) 0x4310 State.pc) =
    (some 0x204, some 0x202) := by decide
/-- Vectors S5, S9. -/
theorem test_seVV : (run (v12 7 8) 0x5120 State.pc, run (v12 7 7) 0x5120 State.pc) = (some 0x202, some 0x204) := by decide
/-- Vectors S7, S8. -/
theorem test_sneVV : (run (v12 7 8) 0x9120 State.pc, run (v12 7 7) 0x9330 State.pc) = (some 0x204, some 0x202) := by decide

/-- Vectors S10, S11. -/
theorem test_skp : (run ((inputs 0x0400 0).setReg 4 0x0A) 0xE49E State.pc, run ((inputs 0 0).setReg 4 0x0A) 0xE49E State.pc) =
    (some 0x204, some 0x202) := by decide
/-- Vector S14. -/
theorem test_skp_fault : run ((inputs 0 0).setReg 15 0x10) 0xEF9E State.runState =
    some (.halted ⟨.outOfBounds 0x10, 0x200⟩) := by decide
/-- Vector S12. -/
theorem test_sknp : run ((inputs 0 0).setReg 4 0x0A) 0xE4A1 State.pc = some 0x204 := by decide
/-- Vector S13. -/
theorem test_sknp_fault : run ((inputs 0 0).setReg 4 0x10) 0xE4A1 State.runState =
    some (.halted ⟨.outOfBounds 0x10, 0x200⟩) := by decide

/-- Vector A1 (the source's E8). -/
theorem test_ldVB : run State.reset 0x6A02 (fun t => (t.reg 10, t.pc)) = some (2, 0x202) := by decide
/-- Vectors A2, A4. -/
theorem test_addVB : (run (v12 5 0) 0x71FF v1f, run (State.reset.setReg 15 0xFF) 0x7F01 v1f) =
    (some (4, 0), some (0, 0)) := by decide
/-- Vector A5. -/
theorem test_ldVV : run (State.reset.setReg 15 1) 0x83F0 (fun t => t.reg 3) = some 1 := by decide
/-- Vectors A6, A8. -/
theorem test_or : run (v12 0x0C 0x0A) 0x8121 v1f = some (0x0E, 0) := by decide
theorem test_and : run (v12 0x0C 0x0A) 0x8122 v1f = some (0x08, 0) := by decide
theorem test_xor : run (v12 0x0C 0x0A) 0x8123 v1f = some (0x06, 0) := by decide

/-- The flag tables of L2.4: V1 and VF after, V1 and V2 before. -/
theorem test_addVV : (run (v12 0xFF 0x01) 0x8124 v1f, run (v12 0x80 0x7F) 0x8124 v1f) =
    (some (0x00, 1), some (0xFF, 0)) := by decide
/-- VF as destination and as source: 8F14 and 81F4. -/
theorem test_addVV_vf : (run ((v12 0x90 0).setReg 15 0x90) 0x8F14 (fun t => t.reg 15),
    run ((v12 0xF0 0).setReg 15 0x20) 0x81F4 v1f) = (some 1, some (0x10, 1)) := by decide
theorem test_sub : (run (v12 5 3) 0x8125 v1f, run (v12 3 5) 0x8125 v1f, run (v12 5 5) 0x8125 v1f) =
    (some (2, 1), some (0xFE, 0), some (0, 0)) := by decide
/-- 8F15 (05, 03) and 81F5 (05, 03). -/
theorem test_sub_vf : (run ((v12 3 0).setReg 15 5) 0x8F15 (fun t => t.reg 15), run ((v12 5 0).setReg 15 3) 0x81F5 v1f) =
    (some 0xFE, some (4, 1)) := by decide
theorem test_shr : (run (v12 5 0) 0x8126 v1f, run (v12 0xFE 0) 0x8126 v1f) = (some (2, 1), some (0x7F, 0)) := by decide
/-- 8F16 (03). -/
theorem test_shr_vf : run (State.reset.setReg 15 3) 0x8F16 (fun t => t.reg 15) = some 0 := by decide
theorem test_subn : (run (v12 3 5) 0x8127 v1f, run (v12 5 3) 0x8127 v1f) = (some (2, 1), some (0xFE, 0)) := by decide
/-- 8F17 (03, 05) and 81F7 (05, 03). -/
theorem test_subn_vf : (run ((v12 5 0).setReg 15 3) 0x8F17 (fun t => t.reg 15), run ((v12 5 0).setReg 15 3) 0x81F7 v1f) =
    (some 4, some (0xFB, 0)) := by decide
theorem test_shl : (run (v12 0x80 0) 0x812E v1f, run (v12 0x7F 0) 0x812E v1f) = (some (0, 1), some (0xFE, 0)) := by decide
/-- 8F1E (90). -/
theorem test_shl_vf : run (State.reset.setReg 15 0x90) 0x8F1E (fun t => t.reg 15) = some 2 := by decide
/-- Vectors A9, A10. -/
theorem test_rnd : (run (inputs 0 0xB7) 0xC30F (fun t => t.reg 3), run (inputs 0 0xAB) 0xC3F0 (fun t => t.reg 3)) =
    (some 7, some 0xA0) := by decide

/-- Vector M1. -/
theorem test_ldI : run { State.reset with I := 0x1234 } 0xA300 State.I = some 0x300 := by decide
/-- Vectors M3, M4. -/
theorem test_addI : (run { (v12 1 0) with I := 0x0FFF } 0xF11E State.I, run { (v12 1 0) with I := 0xFFFF } 0xF11E State.I) =
    (some 0x1000, some 0) := by decide
/-- Vectors M5, M7. -/
theorem test_ldF : (run (State.reset.setReg 0 0x0A) 0xF029 State.I, run (State.reset.setReg 0 0xFF) 0xF029 State.I) =
    (some 0x32, some 0x4FB) := by decide
/-- Vector M8 (the source's E7). -/
theorem test_ldB : run { (State.reset.setReg 0 234) with I := 0x300 } 0xF033 (fun t => t.mem.readList 0x300 3) =
    some [2, 3, 4] := by decide
/-- Vector M11. -/
theorem test_ldB_fault : run { State.reset with I := 0xFFE } 0xF033 (fun t => (t.runState, t.mem.cells.length)) =
    some (.halted ⟨.outOfBounds 0x1000, 0x200⟩, 2) := by decide
/-- Vector M12. -/
theorem test_ldMemV : run { ((v12 2 3).setReg 0 1) with I := 0x300 } 0xF255 (fun t => (t.mem.readList 0x2FF 5, t.I)) =
    some ([0, 1, 2, 3, 0], 0x300) := by decide
/-- Vector M14. -/
theorem test_ldMemV_fault : run { State.reset with I := 0xFFF } 0xF155 State.runState =
    some (.halted ⟨.outOfBounds 0x1000, 0x200⟩) := by decide
/-- Vector M16. -/
theorem test_ldVMem : run { State.reset with I := 0x300, mem := State.reset.mem.writeList 0x300 [2, 3, 4, 5] } 0xF265
    (fun t => (t.reg 0, t.reg 1, t.reg 2, t.reg 3)) = some (2, 3, 4, 0) := by decide
/-- Vector M18. -/
theorem test_ldVMem_fault : run { State.reset with I := 0xFF1 } 0xFF65 State.runState =
    some (.halted ⟨.outOfBounds 0x1000, 0x200⟩) := by decide

/-- Vector K1. -/
theorem test_ldVDT : run { State.reset with DT := 0x3A } 0xF507 (fun t => (t.reg 5, t.DT)) = some (0x3A, 0x3A) := by decide
/-- Vector K6. -/
theorem test_ldVK_waits : run { (inputs 0 0) with pc := 0x240 } 0xF30A (fun t => (t.status, t.pc)) =
    some (some .waiting, 0x240) := by decide
/-- Vector K7. -/
theorem test_ldVK : run { (inputs 0x0240 0) with pc := 0x240 } 0xF30A (fun t => (t.status, t.reg 3, t.pc)) =
    some (some .ok, 6, 0x242) := by decide
/-- Vector K2. -/
theorem test_ldDT : run (State.reset.setReg 5 0x3C) 0xF515 State.DT = some 0x3C := by decide
/-- Vector K3. -/
theorem test_ldST : run (State.reset.setReg 5 2) 0xF518 (fun t => (t.ST, t.soundOn)) = some (2, true) := by decide

/-- A step seen through `f`. -/
def stepTo (s : State) {α : Type} (f : State → α) : Option α :=
  match step s with
  | .next t => some (f t)
  | _ => none

/-- A block halted by an illegal word at 0x200, with given transactions to come. -/
def haltedState (host : List Transaction) : State :=
  { State.reset with runState := .halted ⟨.decodeError 0, 0x200⟩, loadOpen := false, host := host }

/-- Vectors K4, K5, K9. -/
theorem test_tick : (stepTo { State.reset with host := [.tick] } State.DT,
    stepTo { (haltedState [.tick]) with DT := 3 } State.DT) = (some 0, some 2) := by decide
/-- Vectors F1, F12. -/
theorem test_decode_fault : stepTo (inputs 0 0) State.runState = some (.halted ⟨.decodeError 0, 0x200⟩) := by decide
/-- Vectors F6, T9. -/
theorem test_fetch_fault : (stepTo { (inputs 0 0) with pc := 0xFFF } State.runState,
    stepTo { (inputs 0 0) with pc := 0x10FE } State.runState) =
    (some (.halted ⟨.outOfBounds 0x1000, 0xFFF⟩), some (.halted ⟨.outOfBounds 0x10FE, 0x10FE⟩)) := by decide
/-- The source's E8: Load puts the first byte at 0x200. -/
theorem test_load : stepTo { State.reset with host := [.load [0x6A, 0x02]] } State.fetchWord = some 0x6A02 := by decide
/-- Vector F9. -/
theorem test_halted_cycle : stepTo (haltedState [.cycle 0 0]) (fun t => (t.status, t.pc)) =
    some (some (.fault ⟨.decodeError 0, 0x200⟩), 0x200) := by decide

/-! ## Witnesses: states and operands that meet the hypotheses of the statements, at the ends of their ranges -/

theorem witness_DecodeOfEncodeIsTheInstruction : (Instr.drw 15 15 15).wellFormed = true := by decide
theorem witness_EncodeOfDecodedIsTheWord : decode 0x8FFE = some (.shl 15 15) := by decide
theorem witness_IllegalWordsAreTheListedOnes :
    [0x0FFF#16, 0x5FFF, 0x8008, 0x800F, 0x9001, 0xEFFF, 0xF066].map decode = List.replicate 7 none := by decide

/-- A running state at the last fetchable pc, holding CLS there. -/
def lastWord (host : List Transaction) : State := { (State.reset.withFetchWord 16 0) with
  pc := 0xFFE, mem := State.reset.mem.writeList 0xFFE [0x00, 0xE0], host := host }

theorem witness_StepExecutesTheFetchedInstruction :
    (lastWord []).runState = .running ∧ (lastWord []).pc.toNat ≤ 0xFFE ∧
    decode ((lastWord []).mem.read (lastWord []).pc.toNat ++ (lastWord []).mem.read ((lastWord []).pc.toNat + 1)) = some .cls ∧
    (lastWord []).host = [] ∧ (lastWord [.cycle 0xFFFF 0xFF]).host = [.cycle 0xFFFF 0xFF] := by decide

theorem witness_FetchOutsideMemoryFaults :
    ({ (inputs 0 0) with pc := 0xFFF }).nextTransaction = .cycle 0 0 ∧ ({ (inputs 0 0) with pc := 0xFFF }).runState = .running ∧
    0xFFE < ({ (inputs 0 0) with pc := 0xFFF }).pc.toNat ∧ 0xFFE < ({ (inputs 0 0) with pc := 0x1000 }).pc.toNat := by decide

theorem witness_FetchedIllegalWordFaults :
    (inputs 0 0).runState = .running ∧ (inputs 0 0).nextTransaction = .cycle 0 0 ∧ (inputs 0 0).pc.toNat ≤ 0xFFE ∧
    decode (inputs 0 0).fetchWord = none := by decide

theorem witness_HaltedCycleReturnsTheLatchedFault :
    (haltedState [.cycle 0 0]).runState = .halted ⟨.decodeError 0, 0x200⟩ ∧
    (haltedState [.cycle 0 0]).nextTransaction = .cycle 0 0 := by decide

theorem inv_haltedState (host : List Transaction) : Inv (haltedState host) where
  memory := State.reset_memory_wf
  pcBound := by show State.reset.pc.toNat ≤ _; decide
  returns := by show ∀ j : Fin 16, State.reset.stack[j].toNat ≤ _; decide
  record := fun r h => by
    obtain rfl : FaultRecord.mk (.decodeError 0) 0x200 = r := by simpa [haltedState] using h
    exact ⟨⟨by decide, by decide⟩, rfl⟩
  overflow := fun p h => by simp [haltedState] at h
  underflow := fun p h => by simp [haltedState] at h
  loadSlot := fun h => by simp [haltedState] at h

theorem witness_OnlyResetLeavesHalted :
    (Inv (haltedState [.tick]) ∧ ∃ t, step (haltedState [.tick]) = .next t) ∧
    (Inv (haltedState [.reset]) ∧ ∃ t, step (haltedState [.reset]) = .next t) :=
  ⟨⟨inv_haltedState _, _, rfl⟩, ⟨inv_haltedState _, _, rfl⟩⟩

theorem witness_FaultingInstructionCommitsNothing :
    State.reset.runState = .running ∧
    ∃ t r, exec .ret State.reset = .next t ∧ t.runState = .halted r := ⟨rfl, _, _, rfl, rfl⟩

theorem witness_StatusSaysHowTheCycleEnded :
    run (inputs 0 0) 0x00E0 State.status = some (some .ok) ∧ run (inputs 0 0) 0xF00A State.status = some (some .waiting) ∧
    run (inputs 0 0) 0x00EE State.status = some (some (.fault ⟨.stackUnderflow, 0x200⟩)) ∧
    ((inputs 0 0).withFetchWord 16 0xF00A).nextTransaction = .cycle 0 0 ∧
    ((inputs 0 0).withFetchWord 16 0xF00A).runState = .running := by decide

theorem witness_TickCountsBothTimersDown : ({ State.reset with host := [.tick] }).nextTransaction = .tick := rfl
theorem witness_ResetSetsEveryItem : (haltedState [.reset]).host = [.reset] := rfl
theorem witness_LoadCopiesTheImage :
    ({ State.reset with host := [.load []] }).host = [.load []] ∧ ({ State.reset with host := [.load []] }).loadOpen = true ∧
    ([] : List Byte).length ≤ 3584 ∧ (List.replicate 3584 (0xFF : Byte)).length ≤ 3584 :=
  ⟨rfl, rfl, Nat.zero_le _, Nat.le_of_eq List.length_replicate⟩
theorem witness_LoadOfTooLongImageHalts :
    ({ State.reset with host := [.load (List.replicate 3585 0)] }).loadOpen = true ∧
    3584 < (List.replicate 3585 (0 : Byte)).length :=
  ⟨rfl, Nat.lt_of_lt_of_eq (by decide) List.length_replicate.symm⟩
theorem witness_LoadOutsideItsSlotIsRefused :
    (haltedState [.load []]).host = [.load []] ∧ (haltedState [.load []]).loadOpen = false := ⟨rfl, rfl⟩
theorem witness_StepAnswersNextUnlessLoadIsLate : step (haltedState [.load []]) = .refused .loadOutsideSlot := rfl

/-- A running block after its first cycle, with a call on its stack, at the highest pc a jump can reach, a Cycle next. -/
def calledState : State :=
  { State.reset with pc := 0x10FE, sp := some 0, stack := State.reset.stack.set 0 0x1000, loadOpen := false, host := [.cycle 0 0] }

theorem inv_calledState : Inv calledState where
  memory := State.reset_memory_wf
  pcBound := by decide
  returns := by decide
  record := fun _ h => nomatch h
  overflow := fun _ h => nomatch h
  underflow := fun _ h => nomatch h
  loadSlot := fun h => nomatch h

theorem witness_EveryStepKeepsTheBlockInvariant :
    (Inv calledState ∧ ∃ t, step calledState = .next t) ∧
    (Inv (haltedState [.tick]) ∧ ∃ t, step (haltedState [.tick]) = .next t) :=
  ⟨⟨inv_calledState, _, rfl⟩, ⟨inv_haltedState _, _, rfl⟩⟩

/-- An instruction's next state seen through `f`. -/
def execTo (i : Instr) (s : State) {α : Type} (f : State → α) : Option α :=
  match exec i s with
  | .next t => some (f t)
  | _ => none

theorem witness_OnlyTimerLoadsWriteTimers :
    execTo (.ldDTV 0) (State.reset.setReg 0 1) State.DT = some 1 ∧
    execTo (.ldSTV 0) (State.reset.setReg 0 1) State.ST = some 1 := by decide
theorem witness_OnlyDisplayAndStoreInstructionsWriteThem :
    execTo .cls { State.reset with fb := State.reset.fb.toggle 0 0 } (fun t => t.fb.pixel 0 0) = some false ∧
    execTo (.ldBV 0) ({ State.reset with I := 0xFFD }.setReg 0 255) (fun t => t.mem.read 0xFFF) = some 5 := by decide
theorem witness_OnlyListedInstructionsWriteStackAndI :
    execTo (.call 0) State.reset (fun t => (t.stack[0], t.sp)) = some (0x202, some 0) ∧
    execTo (.ldI 0xFFF) State.reset State.I = some 0xFFF := by decide
theorem witness_OnlyListedInstructionsWriteRegisters :
    execTo (.ldVMem 14) State.reset (fun t => t.reg 14) = some 0xF0 ∧ (14 : Reg) ≠ Reg.vf ∧ State.reset.reg 14 = 0 := by decide

theorem witness_ClsClearsEveryPixel : opField 0x00E1 = 0 ∧ (0x00E1 : Word) ≠ 0x00E0 ∧ (0x00E1 : Word) ≠ 0x00EE := by decide

theorem witness_DrwXorsTheSpriteAndReportsCollision :
    AccessInRange { State.reset with I := 0xFF1 } 15 ∧ AccessInRange { State.reset with I := 0xFFFF } 0 :=
  ⟨fun k hk => by show (0xFF1 : Word).toNat + k ≤ 0xFFF; simp; omega, fun k hk => by omega⟩

theorem witness_DrawingTwiceRestoresTheFramebuffer :
    AccessInRange State.reset 5 ∧ (0 : Reg) ≠ Reg.vf ∧
    ∃ t u, exec (.drw 0 0 5) State.reset = .next t ∧ exec (.drw 0 0 5) t = .next u :=
  ⟨fun k hk => by show (0 : Word).toNat + k ≤ 0xFFF; simp; omega, by decide, _, _, rfl, rfl⟩

theorem witness_RetPopsTheReturnAddress :
    ({ State.reset with sp := some 0 }).sp = some 0 ∧ ({ State.reset with sp := some 15 }).sp = some 15 := ⟨rfl, rfl⟩
theorem witness_CallPushesTheReturnAddress :
    State.reset.sp ≠ some 15 ∧ ({ State.reset with sp := some 14 }).sp ≠ some 15 := by decide
theorem witness_StackLimitsFault : ({ State.reset with sp := some 15 }).sp = some 15 ∧ State.reset.sp = none := ⟨rfl, rfl⟩
theorem witness_CallThenReturnRestores : State.reset.sp ≠ some 15 := by decide
theorem witness_RegisterSkipsCompare :
    opField 0x5FF1 = 0x5 ∧ nField 0x5FF1 ≠ 0 ∧ opField 0x900F = 0x9 ∧ nField 0x900F ≠ 0 := by decide
theorem witness_KeySkipsTestTheKey :
    (State.reset.reg 0).toNat ≤ 15 ∧ ((State.reset.setReg 0 15).reg 0).toNat ≤ 15 := by decide
theorem witness_KeySkipsFaultAboveFifteen : 15 < ((State.reset.setReg 0 16).reg 0).toNat := by decide
theorem witness_AddWritesSumThenCarry : (14 : Reg) ≠ Reg.vf ∧ (0 : Reg) ≠ 14 ∧ (0 : Reg) ≠ Reg.vf := by decide
theorem witness_SubWritesFlagThenDifference :
    (1 : Byte) = (if ((v12 5 3).reg 2).toNat < ((v12 5 3).reg 1).toNat then 1 else 0) ∧
    (0 : Byte) = (if ((v12 5 5).reg 2).toNat < ((v12 5 5).reg 1).toNat then 1 else 0) := by decide
theorem witness_SubnWritesFlagThenDifference :
    (1 : Byte) = (if ((v12 3 5).reg 1).toNat < ((v12 3 5).reg 2).toNat then 1 else 0) ∧
    (0 : Byte) = (if ((v12 5 5).reg 1).toNat < ((v12 5 5).reg 2).toNat then 1 else 0) := by decide
theorem witness_ShiftsWriteFlagThenResult : (14 : Reg) ≠ Reg.vf ∧ (15 : Reg) = Reg.vf := by decide

theorem witness_BcdStoresThreeDigits : ({ State.reset with I := 0xFFD }).I.toNat + 2 ≤ 0xFFF := by decide
theorem witness_BlockStoreWritesV0ToVx :
    ({ State.reset with I := 0xFFF }).I.toNat + (0 : Reg).val ≤ 0xFFF ∧
    ({ State.reset with I := 0xFF0 }).I.toNat + (15 : Reg).val ≤ 0xFFF := by decide
theorem witness_BlockLoadReadsV0ToVx :
    ({ State.reset with I := 0xFFF }).I.toNat + (0 : Reg).val ≤ 0xFFF ∧
    ({ State.reset with I := 0xFF0 }).I.toNat + (15 : Reg).val ≤ 0xFFF := by decide
theorem witness_AccessOutsideMemoryFaults :
    0xFFF < ({ State.reset with I := 0xFFE }).I.toNat + 2 ∧
    0xFFF < ({ State.reset with I := 0xFFF }).I.toNat + (1 : Reg).val ∧
    0xFFF < ({ State.reset with I := 0x1000 }).I.toNat + (0 : Reg).val ∧
    0 < 1 ∧ 0xFFF < ({ State.reset with I := 0x1000 }).I.toNat + (1 - 1) := by decide
theorem witness_StoredWordIsFetchedNext :
    ({ State.reset with pc := 0xFFC, I := 0xFFE }).pc.toNat ≤ 0xFFC ∧
    ({ State.reset with pc := 0xFFC, I := 0xFFE }).I = ({ State.reset with pc := 0xFFC, I := 0xFFE }).pc + 2 ∧
    ∃ t, exec (.ldMemV 1) { State.reset with pc := 0xFFC, I := 0xFFE } = .next t := ⟨by decide, by decide, _, rfl⟩
theorem witness_KeyWaitTakesTheLowestPressedKey :
    ({ State.reset with keys := 0x8000 }).keys.getLsbD (15 : Fin 16).val = true ∧
    ∀ j, j < (15 : Fin 16).val → ({ State.reset with keys := 0x8000 }).keys.getLsbD j = false := by decide
theorem witness_KeyWaitCommitsNothing : State.reset.keys = 0 := rfl

/-- A jump to itself at the last fetchable pc. -/
def selfJump : State := { (inputs 0 0) with pc := 0xFFE, mem := State.reset.mem.writeList 0xFFE [0x1F, 0xFE] }
theorem witness_SelfJumpChangesNothing : AtSelfJump selfJump ∧ selfJump.nextTransaction = .cycle 0 0 :=
  ⟨⟨rfl, by decide, by decide⟩, by decide⟩

/-- R155 (b): one Cycle at a jump to itself is a normal end. -/
theorem test_self_jump_is_a_normal_end : ∃ t, NormalEnd selfJump t :=
  ⟨_, ⟨⟨0, 0, rfl⟩, rfl, rfl⟩, rfl, by decide, by decide⟩
/-- R155 (b): a Load of `12 00` leaves pc at a jump to itself, and is no normal end. -/
theorem test_load_of_self_jump_is_no_normal_end :
    stepTo { State.reset with host := [.load [0x12, 0x00]] } State.fetchWord = some (0x1000 ||| 0x200) ∧
    ¬ ∃ t, NormalEnd { State.reset with host := [.load [0x12, 0x00]] } t :=
  ⟨by decide, fun ⟨_, ⟨⟨_, _, h⟩, _⟩, _⟩ => nomatch h⟩

theorem witness_EachStepTakesTheNextTransaction :
    ({ State.reset with host := [.tick, .cycle 0 0] }).host = .tick :: [.cycle 0 0] ∧ State.reset.host = [] ∧
    ∃ t, step { State.reset with host := [.tick, .cycle 0 0] } = .next t := ⟨rfl, rfl, _, rfl⟩

/-- R137: beyond the list too every step goes on, by a Tick or by a Cycle. -/
theorem test_step_beyond_the_list : ∃ t, step State.reset = .next t := by
  rw [step_of_nil rfl]
  rcases State.freeTransaction_cases State.reset with ⟨_, e⟩ | ⟨_, e⟩ <;> rw [e] <;> exact ⟨_, rfl⟩
/-- The step of a placed word is a Cycle that runs it, whatever the schedule was: with none, and with a Tick before. -/
theorem test_withFetchWord : (stepTo (State.reset.withFetchWord 16 0x6A02) (fun t => (t.reg 10, t.pc)),
    stepTo ({ State.reset with host := [.tick, .reset] }.withFetchWord 16 0x6A02) (fun t => (t.reg 10, t.pc))) =
    (some (2, 0x202), some (2, 0x202)) := by decide

end Sys2Proof.Tests
end

section
/-! What a decoded word was: the decoder reads back exactly the word the encoder writes (30_encoding.md R74, R75).
Group by group, then for the whole decoder. -/

namespace Sys2Proof

/-! ### A word from its fields, each named -/

theorem formatNNN_of_opField {w : Word} {op : BitVec 4} (hop : opField w = op) : formatNNN op (nnnField w) = w := by
  subst hop; exact (word_eq_formatNNN w).symm

theorem formatXKK_of_opField {w : Word} {op : BitVec 4} (hop : opField w = op) :
    formatXKK op (xField w) (kkField w) = w := by
  subst hop; exact (word_eq_formatXKK w).symm

/-- The `kk` place holds a function selector. -/
theorem formatXKK_of_selector {w : Word} {op : BitVec 4} {kk : Byte} (hop : opField w = op) (hkk : kkField w = kk) :
    formatXKK op (xField w) kk = w := by
  subst hkk; exact formatXKK_of_opField hop

/-- The `n` place holds a function selector, or the row count of DRW. -/
theorem formatXYN_of_selector {w : Word} {op n : BitVec 4} (hop : opField w = op) (hn : nField w = n) :
    formatXYN op (xField w) (yField w) n = w := by
  subst hop hn; exact (word_eq_formatXYN w).symm

/-! ### From the decoded instruction back to its word -/

theorem encode_of_decodeGroup0 {w : Word} {i : Instr} (h : decodeGroup0 w = some i) : encode i = w := by
  unfold decodeGroup0 at h
  split_ifs at h with hcls hret
  · cases h; exact hcls.symm
  · cases h; exact hret.symm

theorem encode_of_decodeGroup8 {w : Word} {i : Instr} (hop : opField w = 0x8#4) (h : decodeGroup8 w = some i) :
    encode i = w := by
  unfold decodeGroup8 at h
  split at h <;> cases h
  all_goals exact formatXYN_of_selector hop ‹nField w = _›

theorem encode_of_decodeGroupE {w : Word} {i : Instr} (hop : opField w = 0xE#4) (h : decodeGroupE w = some i) :
    encode i = w := by
  unfold decodeGroupE at h
  split at h <;> cases h
  all_goals exact formatXKK_of_selector hop ‹kkField w = _›

theorem encode_of_decodeGroupF {w : Word} {i : Instr} (hop : opField w = 0xF#4) (h : decodeGroupF w = some i) :
    encode i = w := by
  unfold decodeGroupF at h
  split at h <;> cases h
  all_goals exact formatXKK_of_selector hop ‹kkField w = _›

/-- A word the decoder accepts is the encoding of the instruction it reads. -/
theorem encode_of_decode {w : Word} {i : Instr} (h : decode w = some i) : encode i = w := by
  unfold decode at h
  split at h <;> rename_i hop
  -- groups 0x0, 0x8, 0xE, 0xF: a selector beyond the op nibble
  case h_1 => exact encode_of_decodeGroup0 h
  case h_9 => exact encode_of_decodeGroup8 hop h
  case h_15 => exact encode_of_decodeGroupE hop h
  case h_16 => exact encode_of_decodeGroupF hop h
  -- groups 0x5, 0x9: the last nibble is 0
  case h_6 | h_10 =>
    split_ifs at h with hn
    cases h
    exact formatXYN_of_selector hop hn
  -- group 0xD: the last nibble is the row count, kept as a number
  case h_14 => cases h; simpa [encode] using formatXYN_of_selector hop rfl
  -- groups 0x1, 0x2, 0xA, 0xB: an address
  case h_2 | h_3 | h_11 | h_12 => cases h; exact formatNNN_of_opField hop
  -- groups 0x3, 0x4, 0x6, 0x7, 0xC: a register and an immediate
  case h_4 | h_5 | h_7 | h_8 | h_13 => cases h; exact formatXKK_of_opField hop
  -- no seventeenth value of the op nibble
  case h_17 => cases h

/-! ### The words of the jumps -/

theorem decode_eq_jp_iff {w : Word} {nnn : BitVec 12} : decode w = some (.jp nnn) ↔ w = 0x1#4 ++ nnn := by
  constructor
  · intro h; exact (encode_of_decode h).symm
  · rintro rfl
    change decode (formatNNN 0x1#4 nnn) = _
    simp [decode]

theorem decode_eq_jpV0_iff {w : Word} {nnn : BitVec 12} : decode w = some (.jpV0 nnn) ↔ w = 0xB#4 ++ nnn := by
  constructor
  · intro h; exact (encode_of_decode h).symm
  · rintro rfl
    change decode (formatNNN 0xB#4 nnn) = _
    simp [decode]

end Sys2Proof
end

section
/-! JP and JP_V0 (41_control_transfer.md R86, R88): the target as a number, what a jump leaves unchanged, and the
obligations. -/

namespace Sys2Proof.Machine

/-! ### Zero-extended operands as numbers -/

@[simp] theorem addrWord_toNat (nnn : BitVec 12) : (addrWord nnn).toNat = nnn.toNat :=
  BitVec.toNat_setWidth_of_le (by omega)

@[simp] theorem byteWord_toNat (b : Byte) : (byteWord b).toNat = b.toNat :=
  BitVec.toNat_setWidth_of_le (by omega)

/-- The sum of an address and a byte does not wrap (41_control_transfer.md R88). -/
theorem addrWord_add_byteWord_toNat (nnn : BitVec 12) (b : Byte) :
    (addrWord nnn + byteWord b).toNat = nnn.toNat + b.toNat := by
  have ha := nnn.isLt
  have hb := b.isLt
  rw [BitVec.toNat_add, addrWord_toNat, byteWord_toNat, Nat.mod_eq_of_lt (by omega)]

/-! ### A committed jump -/

/-- A committed jump moves pc alone. -/
theorem sameButPc_jumpTo_committed (s : State) (target : Word) : SameButPc s (s.jumpTo target).committed :=
  ⟨fun _ => rfl, rfl, ⟨rfl, fun _ => rfl⟩, ⟨rfl, rfl⟩, fun _ _ => rfl, ⟨rfl, fun _ => rfl⟩,
    rfl, rfl, rfl, rfl, rfl, rfl⟩

theorem exec_jp (nnn : BitVec 12) (s : State) : exec (.jp nnn) s = .next (s.jumpTo (addrWord nnn)).committed := rfl

theorem exec_jpV0 (nnn : BitVec 12) (s : State) :
    exec (.jpV0 nnn) s = .next (s.jumpTo (addrWord nnn + byteWord (s.reg 0))).committed := rfl

/-! ### The obligations -/

/-- Settles O34: the words by the decoder's inversion, the effect by the frame of a committed jump. -/
theorem jpJumpsToTheAddress : Obligations.JpJumpsToTheAddress := by
  intro nnn
  refine ⟨fun w => decode_eq_jp_iff, fun s => ⟨_, exec_jp nnn s, ?_, sameButPc_jumpTo_committed s _⟩⟩
  exact addrWord_toNat nnn

/-- Settles O35: as for JP; the target is the sum as a number because 0xFFF + 0xFF fits 16 bits. -/
theorem jpV0AddsV0 : Obligations.JpV0AddsV0 := by
  intro nnn
  refine ⟨fun w => decode_eq_jpV0_iff, fun s => ⟨_, exec_jpV0 nnn s, ?_, sameButPc_jumpTo_committed s _⟩⟩
  exact addrWord_add_byteWord_toNat nnn (s.reg 0)

end Sys2Proof.Machine
end

section
/-! SE_VB and SNE_VB (42_skips.md R89, R90): their words, a committed skip as a jump from pc0, and the obligation. -/

namespace Sys2Proof

/-! ### The words of the immediate skips -/

/-- An instruction the decoder reads back from its encoding is read from no other word. -/
theorem decode_eq_some_iff_of_decode_encode {w : Word} {i : Instr} (h : decode (encode i) = some i) :
    decode w = some i ↔ w = encode i :=
  ⟨fun hw => (encode_of_decode hw).symm, fun hw => hw ▸ h⟩

theorem decode_eq_seVB_iff {w : Word} {x : Reg} {kk : Byte} :
    decode w = some (.seVB x kk) ↔ w = 0x3#4 ++ BitVec.ofFin (w := 4) x ++ kk :=
  decode_eq_some_iff_of_decode_encode (i := .seVB x kk) (by simp [encode, decode])

theorem decode_eq_sneVB_iff {w : Word} {x : Reg} {kk : Byte} :
    decode w = some (.sneVB x kk) ↔ w = 0x4#4 ++ BitVec.ofFin (w := 4) x ++ kk :=
  decode_eq_some_iff_of_decode_encode (i := .sneVB x kk) (by simp [encode, decode])

end Sys2Proof

namespace Sys2Proof.Machine

/-! ### A committed skip -/

/-- A skip is a jump from pc0: over the next instruction when its condition holds, else to it. -/
theorem skipIf_advance (s : State) (c : Bool) :
    s.advance.skipIf c = s.jumpTo (if c then s.pc + 4 else s.pc + 2) := by
  cases c with
  | false => rfl
  | true =>
    have hpc : s.pc + 2 + 2 = s.pc + 4 := by rw [add_assoc]; rfl
    exact congrArg s.jumpTo hpc

/-- Every instruction that answers a committed skip moves pc by its condition, and pc alone. -/
theorem completes_of_exec_eq_skip {i : Instr} {s : State} {c : Bool}
    (h : exec i s = .next (s.advance.skipIf c).committed) :
    Completes i s fun t => t.pc = (if c then s.pc + 4 else s.pc + 2) ∧ SameButPc s t := by
  rw [skipIf_advance] at h
  exact ⟨_, h, rfl, sameButPc_jumpTo_committed s _⟩

theorem exec_seVB (x : Reg) (kk : Byte) (s : State) :
    exec (.seVB x kk) s = .next (s.advance.skipIf (s.reg x == kk)).committed := rfl

theorem exec_sneVB (x : Reg) (kk : Byte) (s : State) :
    exec (.sneVB x kk) s = .next (s.advance.skipIf (s.reg x != kk)).committed := rfl

/-! ### The obligation -/

/-- Settles O36: the words by the decoder's inversion, the effect by the rule of a committed skip; SNE_VB's branches
stand the other way round because its condition is the negation of SE_VB's. -/
theorem immediateSkipsCompare : Obligations.ImmediateSkipsCompare := by
  intro x kk
  refine ⟨fun w => decode_eq_seVB_iff, fun w => decode_eq_sneVB_iff, fun s => ⟨?_, ?_⟩⟩
  · simpa using completes_of_exec_eq_skip (exec_seVB x kk s)
  · simpa using completes_of_exec_eq_skip (exec_sneVB x kk s)

end Sys2Proof.Machine
end

section
/-! LD_VB, ADD_VB, LD_VV, OR, AND and XOR (43_alu.md R96 to R101): their words, the rule of an instruction that commits
one register write and pc + 2, and the obligations. -/

namespace Sys2Proof

/-! ### The words of the loads, the immediate addition and the bitwise instructions -/

theorem decode_eq_ldVB_iff {w : Word} {x : Reg} {kk : Byte} :
    decode w = some (.ldVB x kk) ↔ w = 0x6#4 ++ BitVec.ofFin (w := 4) x ++ kk :=
  decode_eq_some_iff_of_decode_encode (i := .ldVB x kk) (by simp [encode, decode])

theorem decode_eq_addVB_iff {w : Word} {x : Reg} {kk : Byte} :
    decode w = some (.addVB x kk) ↔ w = 0x7#4 ++ BitVec.ofFin (w := 4) x ++ kk :=
  decode_eq_some_iff_of_decode_encode (i := .addVB x kk) (by simp [encode, decode])

/-- The op nibble 0x8 leaves the decoding to the selector in the `n` place. -/
theorem decode_formatXYN_8 (x y : Reg) (n : BitVec 4) :
    decode (formatXYN 0x8#4 x y n) = decodeGroup8 (formatXYN 0x8#4 x y n) := by simp [decode]

theorem decode_eq_ldVV_iff {w : Word} {x y : Reg} :
    decode w = some (.ldVV x y) ↔ w = 0x8#4 ++ BitVec.ofFin (w := 4) x ++ BitVec.ofFin (w := 4) y ++ 0x0#4 :=
  decode_eq_some_iff_of_decode_encode (i := .ldVV x y) (by simp [encode, decode_formatXYN_8, decodeGroup8])

theorem decode_eq_orVV_iff {w : Word} {x y : Reg} :
    decode w = some (.orVV x y) ↔ w = 0x8#4 ++ BitVec.ofFin (w := 4) x ++ BitVec.ofFin (w := 4) y ++ 0x1#4 :=
  decode_eq_some_iff_of_decode_encode (i := .orVV x y) (by simp [encode, decode_formatXYN_8, decodeGroup8])

theorem decode_eq_andVV_iff {w : Word} {x y : Reg} :
    decode w = some (.andVV x y) ↔ w = 0x8#4 ++ BitVec.ofFin (w := 4) x ++ BitVec.ofFin (w := 4) y ++ 0x2#4 :=
  decode_eq_some_iff_of_decode_encode (i := .andVV x y) (by simp [encode, decode_formatXYN_8, decodeGroup8])

theorem decode_eq_xorVV_iff {w : Word} {x y : Reg} :
    decode w = some (.xorVV x y) ↔ w = 0x8#4 ++ BitVec.ofFin (w := 4) x ++ BitVec.ofFin (w := 4) y ++ 0x3#4 :=
  decode_eq_some_iff_of_decode_encode (i := .xorVV x y) (by simp [encode, decode_formatXYN_8, decodeGroup8])

end Sys2Proof

namespace Sys2Proof.Machine

/-! ### A committed register write -/

/-- A committed register write changes the registers and pc alone. -/
theorem sameButRegs_setReg_committed (s : State) (x : Reg) (b : Byte) :
    SameButRegs s (s.advance.setReg x b).committed :=
  ⟨rfl, ⟨rfl, fun _ => rfl⟩, ⟨rfl, rfl⟩, fun _ _ => rfl, ⟨rfl, fun _ => rfl⟩, rfl, rfl, rfl, rfl, rfl, rfl⟩

/-- Every instruction that answers a committed write of V[x] reaches whatever follows from that value of V[x], leaves
every other register, and moves pc by 2. -/
theorem completes_of_exec_eq_setReg {i : Instr} {s : State} {x : Reg} {b : Byte} {written : State → Prop}
    (h : exec i s = .next (s.advance.setReg x b).committed) (hwritten : ∀ t : State, t.reg x = b → written t) :
    Completes i s fun t => written t ∧ (∀ r, r ≠ x → t.reg r = s.reg r) ∧ t.pc = s.pc + 2 ∧ SameButRegs s t :=
  ⟨_, h, hwritten _ (State.reg_setReg_same s.advance x b), fun _ hr => State.reg_setReg_of_ne s.advance b hr, rfl,
    sameButRegs_setReg_committed s x b⟩

theorem exec_ldVB (x : Reg) (kk : Byte) (s : State) :
    exec (.ldVB x kk) s = .next (s.advance.setReg x kk).committed := rfl

theorem exec_addVB (x : Reg) (kk : Byte) (s : State) :
    exec (.addVB x kk) s = .next (s.advance.setReg x (s.reg x + kk)).committed := rfl

theorem exec_ldVV (x y : Reg) (s : State) :
    exec (.ldVV x y) s = .next (s.advance.setReg x (s.reg y)).committed := rfl

theorem exec_orVV (x y : Reg) (s : State) :
    exec (.orVV x y) s = .next (s.advance.setReg x (s.reg x ||| s.reg y)).committed := rfl

theorem exec_andVV (x y : Reg) (s : State) :
    exec (.andVV x y) s = .next (s.advance.setReg x (s.reg x &&& s.reg y)).committed := rfl

theorem exec_xorVV (x y : Reg) (s : State) :
    exec (.xorVV x y) s = .next (s.advance.setReg x (s.reg x ^^^ s.reg y)).committed := rfl

/-! ### The obligations -/

/-- Settles O40: the words by the decoder's inversion; LD_VB by the read of a register after a write, ADD_VB by the rule
of a committed register write, the sum of two bytes being modulo 256. -/
theorem immediateLoadAndAddWriteVx : Obligations.ImmediateLoadAndAddWriteVx := by
  intro x kk
  refine ⟨fun w => decode_eq_ldVB_iff, fun w => decode_eq_addVB_iff, fun s => ⟨?_, ?_⟩⟩
  · exact ⟨_, exec_ldVB x kk s, fun r => State.reg_setReg s.advance x r kk, rfl, sameButRegs_setReg_committed s x kk⟩
  · exact completes_of_exec_eq_setReg (exec_addVB x kk s) fun t hx => hx ▸ BitVec.toNat_add (s.reg x) kk

/-- Settles O41: the words by the decoder's inversion, the effect by the rule of a committed register write, each
combination read bit by bit. -/
theorem copyAndLogicWriteVx : Obligations.CopyAndLogicWriteVx := by
  intro x y
  refine ⟨fun w => decode_eq_ldVV_iff, fun w => decode_eq_orVV_iff, fun w => decode_eq_andVV_iff,
    fun w => decode_eq_xorVV_iff, fun s => ⟨?_, ?_, ?_, ?_⟩⟩
  · exact completes_of_exec_eq_setReg (exec_ldVV x y s) fun t hx => hx
  · exact completes_of_exec_eq_setReg (exec_orVV x y s) fun t hx b => hx ▸ BitVec.getLsbD_or
  · exact completes_of_exec_eq_setReg (exec_andVV x y s) fun t hx b => hx ▸ BitVec.getLsbD_and
  · exact completes_of_exec_eq_setReg (exec_xorVV x y s) fun t hx b => hx ▸ BitVec.getLsbD_xor

end Sys2Proof.Machine
end

section
/-! LD_V_DT and LD_DT_V (45_timers_input.md R114, R116): their words, what a committed write of DT leaves unchanged, and
the obligation. -/

namespace Sys2Proof

/-! ### The words of the delay timer's moves -/

/-- The op nibble 0xF leaves the decoding to the selector in the `kk` place. -/
theorem decode_formatXKK_F (x : Reg) (kk : Byte) :
    decode (formatXKK 0xF#4 x kk) = decodeGroupF (formatXKK 0xF#4 x kk) := by simp [decode]

theorem decode_eq_ldVDT_iff {w : Word} {x : Reg} :
    decode w = some (.ldVDT x) ↔ w = 0xF#4 ++ BitVec.ofFin (w := 4) x ++ 0x07#8 :=
  decode_eq_some_iff_of_decode_encode (i := .ldVDT x) (by simp [encode, decode_formatXKK_F, decodeGroupF])

theorem decode_eq_ldDTV_iff {w : Word} {x : Reg} :
    decode w = some (.ldDTV x) ↔ w = 0xF#4 ++ BitVec.ofFin (w := 4) x ++ 0x15#8 :=
  decode_eq_some_iff_of_decode_encode (i := .ldDTV x) (by simp [encode, decode_formatXKK_F, decodeGroupF])

end Sys2Proof

namespace Sys2Proof.Machine

/-! ### A committed write of the delay timer -/

theorem exec_ldVDT (x : Reg) (s : State) : exec (.ldVDT x) s = .next (s.advance.setReg x s.DT).committed := rfl

theorem exec_ldDTV (x : Reg) (s : State) :
    exec (.ldDTV x) s = .next { s.advance with DT := s.reg x }.committed := rfl

/-- A committed write of DT changes DT and pc alone; the sound timer is among what it leaves. -/
theorem setDT_committed_frame (s : State) (b : Byte) :
    let t := { s.advance with DT := b }.committed
    t.ST = s.ST ∧ t.pc = s.pc + 2 ∧
      SameRegs s t ∧ SameI s t ∧ SameStack s t ∧ SameDisplay s t ∧ SameMemory s t ∧ SameRun s t :=
  ⟨rfl, rfl, fun _ => rfl, rfl, ⟨rfl, fun _ => rfl⟩, fun _ _ => rfl, ⟨rfl, fun _ => rfl⟩,
    rfl, rfl, rfl, rfl, rfl, rfl⟩

/-! ### The obligation -/

/-- Settles O54: the words by the decoder's inversion; LD_V_DT by the read of a register after a write and the frame of
a committed register write, LD_DT_V by the frame of a committed write of DT. -/
theorem delayTimerMovesCopyTheByte : Obligations.DelayTimerMovesCopyTheByte := by
  intro x
  refine ⟨fun w => decode_eq_ldVDT_iff, fun w => decode_eq_ldDTV_iff, fun s => ⟨?_, ?_⟩⟩
  · exact ⟨_, exec_ldVDT x s, fun r => State.reg_setReg s.advance x r s.DT, rfl, sameButRegs_setReg_committed s x s.DT⟩
  · exact ⟨_, exec_ldDTV x s, rfl, setDT_committed_frame s (s.reg x)⟩

end Sys2Proof.Machine
end

section
/-! The decoder and the encoder as inverses (30_encoding.md R74 to R77): decoding an encoding, the words of each
instruction, the illegal words, the rows of the opcode table, and the obligations O1 to O6. -/

namespace Sys2Proof

/-! ### Decoding an encoding -/

/-- The op nibble 0xE leaves the decoding to the selector in the `kk` place. -/
theorem decode_formatXKK_E (x : Reg) (kk : Byte) :
    decode (formatXKK 0xE#4 x kk) = decodeGroupE (formatXKK 0xE#4 x kk) := by simp [decode]

/-- The last nibble of DRW is its row count modulo 16. -/
theorem decode_encode_drw (x y : Reg) (n : Nat) : decode (encode (.drw x y n)) = some (.drw x y (n % 16)) := by
  simp [encode, decode]

theorem decode_encode {i : Instr} (h : i.wellFormed = true) : decode (encode i) = some i := by
  cases i
  -- group 0x0: fixed words
  case cls | ret => decide
  -- groups with a selector beyond the op nibble
  case ldVV | orVV | andVV | xorVV | addVV | subVV | shr | subnVV | shl =>
    simp [encode, decode_formatXYN_8, decodeGroup8]
  case skp | sknp => simp [encode, decode_formatXKK_E, decodeGroupE]
  case ldVDT | ldVK | ldDTV | ldSTV | addIV | ldFV | ldBV | ldMemV | ldVMem =>
    simp [encode, decode_formatXKK_F, decodeGroupF]
  -- the one operand that is checked
  case drw x y n =>
    have hn : n < 16 := of_decide_eq_true h
    rw [decode_encode_drw, Nat.mod_eq_of_lt hn]
  -- the op nibble says all
  all_goals simp [encode, decode]

/-- What the decoder reads is well formed: a row count read back is one modulo 16. -/
theorem wellFormed_of_decode {w : Word} {i : Instr} (h : decode w = some i) : i.wellFormed = true := by
  cases i
  case drw x y n =>
    have hn : some (Instr.drw x y (n % 16)) = some (.drw x y n) := by
      rw [← decode_encode_drw, encode_of_decode h, h]
    have hmod : n % 16 = n := by simpa using hn
    exact decide_eq_true (show n < 16 by omega)
  all_goals rfl

/-- A well-formed instruction is read from its encoding and from no other word. -/
theorem decode_eq_some_iff {w : Word} {i : Instr} (h : i.wellFormed = true) : decode w = some i ↔ w = encode i :=
  decode_eq_some_iff_of_decode_encode (decode_encode h)

/-- A row count that is a nibble is written as that nibble. -/
theorem decode_eq_drw_iff {w : Word} {x y : Reg} {n : BitVec 4} :
    decode w = some (.drw x y n.toNat) ↔
      w = 0xD#4 ++ BitVec.ofFin (w := 4) x ++ BitVec.ofFin (w := 4) y ++ n := by
  rw [decode_eq_some_iff (i := .drw x y n.toNat) (decide_eq_true n.isLt)]
  simp [encode, formatXYN]

/-! ### Illegal words -/

theorem decodeGroup0_eq_none_iff {w : Word} : decodeGroup0 w = none ↔ w ≠ 0x00E0 ∧ w ≠ 0x00EE := by
  unfold decodeGroup0
  split_ifs <;> simp_all

/-- The nine functions of group 0x8 leave seven values of the last nibble. -/
theorem nibble_unused_by_group8 (n : BitVec 4) :
    n ∈ [0x8#4, 0x9#4, 0xA#4, 0xB#4, 0xC#4, 0xD#4, 0xF#4] ↔
      n ∉ [0x0#4, 0x1#4, 0x2#4, 0x3#4, 0x4#4, 0x5#4, 0x6#4, 0x7#4, 0xE#4] := by
  revert n; decide

theorem decodeGroup8_eq_none_iff {w : Word} :
    decodeGroup8 w = none ↔ nField w ∈ [0x8#4, 0x9#4, 0xA#4, 0xB#4, 0xC#4, 0xD#4, 0xF#4] := by
  rw [nibble_unused_by_group8]
  unfold decodeGroup8
  split <;> simp_all

theorem decodeGroupE_eq_none_iff {w : Word} : decodeGroupE w = none ↔ kkField w ≠ 0x9E ∧ kkField w ≠ 0xA1 := by
  unfold decodeGroupE
  split <;> simp_all

theorem decodeGroupF_eq_none_iff {w : Word} :
    decodeGroupF w = none ↔
      kkField w ∉ [0x07#8, 0x0A#8, 0x15#8, 0x18#8, 0x1E#8, 0x29#8, 0x33#8, 0x55#8, 0x65#8] := by
  unfold decodeGroupF
  split <;> simp_all

/-- The sixteen values of a nibble. -/
theorem nibble_cases (n : BitVec 4) :
    n ∈ [0x0#4, 0x1#4, 0x2#4, 0x3#4, 0x4#4, 0x5#4, 0x6#4, 0x7#4, 0x8#4, 0x9#4, 0xA#4, 0xB#4, 0xC#4, 0xD#4, 0xE#4,
      0xF#4] := by
  revert n; decide

/-- The decoder rejects a word in its group's function, or in the nibble groups 0x5 and 0x9 fix to 0. -/
theorem decode_eq_none_iff {w : Word} :
    decode w = none ↔
      (opField w = 0x0 ∧ decodeGroup0 w = none) ∨ (opField w = 0x5 ∧ nField w ≠ 0) ∨
      (opField w = 0x8 ∧ decodeGroup8 w = none) ∨ (opField w = 0x9 ∧ nField w ≠ 0) ∨
      (opField w = 0xE ∧ decodeGroupE w = none) ∨ (opField w = 0xF ∧ decodeGroupF w = none) := by
  unfold decode
  split <;> rename_i hop
  case h_17 => exact absurd (nibble_cases (opField w)) (by simp_all)
  all_goals simp [hop]

/-! ### The rows of the opcode table by the fields they test -/

/-- A row whose mask keeps the whole word. -/
def wordRow (m : String) (p : Word) : TableRow := ⟨m, p, 0xFFFF#16⟩
/-- A row whose mask keeps the op nibble alone. -/
def opRow (m : String) (op : BitVec 4) : TableRow := ⟨m, formatXKK op 0 0, 0xF000#16⟩
/-- A row whose mask keeps the op nibble and the last nibble. -/
def nRow (m : String) (op n : BitVec 4) : TableRow := ⟨m, formatXYN op 0 0 n, 0xF00F#16⟩
/-- A row whose mask keeps the op nibble and the last byte. -/
def kkRow (m : String) (op : BitVec 4) (kk : Byte) : TableRow := ⟨m, formatXKK op 0 kk, 0xF0FF#16⟩

theorem opRow_accepts {m : String} {op : BitVec 4} {w : Word} :
    (opRow m op).accepts w = true ↔ opField w = op := by
  have hmask : w &&& 0xF000#16 = formatXKK (opField w) 0 0 := by
    conv_lhs => rw [word_eq_formatXKK w, Laws.EncodesToRow.formatXKK_opMask]
  simp only [opRow, TableRow.accepts, beq_iff_eq, hmask]
  exact ⟨fun h => by simpa using congrArg opField h, fun h => by rw [h]⟩

theorem nRow_accepts {m : String} {op n : BitVec 4} {w : Word} :
    (nRow m op n).accepts w = true ↔ opField w = op ∧ nField w = n := by
  have hmask : w &&& 0xF00F#16 = formatXYN (opField w) 0 0 (nField w) := by
    conv_lhs => rw [word_eq_formatXYN w, Laws.EncodesToRow.formatXYN_selectorMask]
  simp only [nRow, TableRow.accepts, beq_iff_eq, hmask]
  exact ⟨fun h => ⟨by simpa using congrArg opField h, by simpa using congrArg nField h⟩,
    fun ⟨h, h'⟩ => by rw [h, h']⟩

theorem kkRow_accepts {m : String} {op : BitVec 4} {kk : Byte} {w : Word} :
    (kkRow m op kk).accepts w = true ↔ opField w = op ∧ kkField w = kk := by
  have hmask : w &&& 0xF0FF#16 = formatXKK (opField w) 0 (kkField w) := by
    conv_lhs => rw [word_eq_formatXKK w, Laws.EncodesToRow.formatXKK_selectorMask]
  simp only [kkRow, TableRow.accepts, beq_iff_eq, hmask]
  exact ⟨fun h => ⟨by simpa using congrArg opField h, by simpa using congrArg kkField h⟩,
    fun ⟨h, h'⟩ => by rw [h, h']⟩

/-- The two words of group 0x0 are tested whole, their op nibble included. -/
theorem wordRow_accepts {m : String} {p w : Word} (hp : opField p = 0x0) :
    (wordRow m p).accepts w = true ↔ opField w = 0x0 ∧ w = p := by
  have hmask : w &&& 0xFFFF#16 = w := BitVec.and_allOnes
  simp only [wordRow, TableRow.accepts, beq_iff_eq, hmask]
  exact ⟨fun h => ⟨h ▸ hp, h⟩, fun ⟨_, h⟩ => h⟩

@[simp] theorem wordRow_mnemonic (m : String) (p : Word) : (wordRow m p).mnemonic = m := rfl
@[simp] theorem opRow_mnemonic (m : String) (op : BitVec 4) : (opRow m op).mnemonic = m := rfl
@[simp] theorem nRow_mnemonic (m : String) (op n : BitVec 4) : (nRow m op n).mnemonic = m := rfl
@[simp] theorem kkRow_mnemonic (m : String) (op : BitVec 4) (kk : Byte) : (kkRow m op kk).mnemonic = m := rfl

theorem tableRows0to7_eq : tableRows0to7 =
    [wordRow "CLS" 0x00E0, wordRow "RET" 0x00EE, opRow "JP" 0x1, opRow "CALL" 0x2, opRow "SE_VB" 0x3,
      opRow "SNE_VB" 0x4, nRow "SE_VV" 0x5 0, opRow "LD_VB" 0x6, opRow "ADD_VB" 0x7] := rfl

theorem tableRows8_eq : tableRows8 =
    [nRow "LD_VV" 0x8 0x0, nRow "OR" 0x8 0x1, nRow "AND" 0x8 0x2, nRow "XOR" 0x8 0x3, nRow "ADD_VV" 0x8 0x4,
      nRow "SUB" 0x8 0x5, nRow "SHR" 0x8 0x6, nRow "SUBN" 0x8 0x7, nRow "SHL" 0x8 0xE] := rfl

theorem tableRows9toD_eq : tableRows9toD =
    [nRow "SNE_VV" 0x9 0, opRow "LD_I" 0xA, opRow "JP_V0" 0xB, opRow "RND" 0xC, opRow "DRW" 0xD] := rfl

theorem tableRowsEF_eq : tableRowsEF =
    [kkRow "SKP" 0xE 0x9E, kkRow "SKNP" 0xE 0xA1, kkRow "LD_V_DT" 0xF 0x07, kkRow "LD_V_K" 0xF 0x0A,
      kkRow "LD_DT_V" 0xF 0x15, kkRow "LD_ST_V" 0xF 0x18, kkRow "ADD_I_V" 0xF 0x1E, kkRow "LD_F_V" 0xF 0x29,
      kkRow "LD_B_V" 0xF 0x33, kkRow "LD_MEM_V" 0xF 0x55, kkRow "LD_V_MEM" 0xF 0x65] := rfl

/-- The mnemonics of the rows of a part of the table that accept a word. -/
def acceptingRows (rows : List TableRow) (w : Word) : List String :=
  (rows.filter (fun r => r.accepts w)).map TableRow.mnemonic

/-- The mnemonic of what a decoder read, or none. -/
def mnemonicsOf (d : Option Instr) : List String := (d.map Instr.mnemonic).toList

@[simp] theorem mnemonicsOf_none : mnemonicsOf none = [] := rfl
@[simp] theorem mnemonicsOf_some (i : Instr) : mnemonicsOf (some i) = [i.mnemonic] := rfl

theorem acceptingRows_nil (w : Word) : acceptingRows [] w = [] := rfl

theorem acceptingRows_cons (r : TableRow) (rows : List TableRow) (w : Word) :
    acceptingRows (r :: rows) w = (if r.accepts w = true then [r.mnemonic] else []) ++ acceptingRows rows w := by
  unfold acceptingRows
  split <;> simp [*]

theorem acceptingRows_opcodeTable (w : Word) :
    acceptingRows opcodeTable w = acceptingRows tableRows0to7 w ++ acceptingRows tableRows8 w ++
      acceptingRows tableRows9toD w ++ acceptingRows tableRowsEF w := by
  simp [acceptingRows, opcodeTable]

/-- Of the rows of group 0x8 a word of that group matches the one decodeGroup8 selects. -/
theorem acceptingRows_tableRows8 (w : Word) :
    acceptingRows tableRows8 w = if opField w = 0x8#4 then mnemonicsOf (decodeGroup8 w) else [] := by
  rw [tableRows8_eq]
  simp only [acceptingRows_cons, acceptingRows_nil, nRow_accepts]
  by_cases hop : opField w = 0x8#4
  · generalize hd : decodeGroup8 w = d
    unfold decodeGroup8 at hd
    split at hd <;> subst hd <;> simp_all [Instr.mnemonic]
  · simp [hop]

/-- Of the rows of groups 0xE and 0xF a word of either matches the one its decoder selects. -/
theorem acceptingRows_tableRowsEF (w : Word) :
    acceptingRows tableRowsEF w = if opField w = 0xE#4 then mnemonicsOf (decodeGroupE w)
      else if opField w = 0xF#4 then mnemonicsOf (decodeGroupF w) else [] := by
  rw [tableRowsEF_eq]
  simp only [acceptingRows_cons, acceptingRows_nil, kkRow_accepts]
  by_cases hE : opField w = 0xE#4
  · generalize hd : decodeGroupE w = d
    unfold decodeGroupE at hd
    split at hd <;> subst hd <;> simp_all [Instr.mnemonic]
  by_cases hF : opField w = 0xF#4
  · generalize hd : decodeGroupF w = d
    unfold decodeGroupF at hd
    split at hd <;> subst hd <;> simp_all [Instr.mnemonic]
  · simp [hE, hF]

/-- A word matches the row of the instruction read from it and no other: by its op nibble, one case of the decoder each;
the groups with more to test are groups 0x0, 0x5 and 0x9 here and 0x8, 0xE and 0xF above. -/
theorem acceptingRows_eq_decode (w : Word) : acceptingRows opcodeTable w = mnemonicsOf (decode w) := by
  rw [acceptingRows_opcodeTable, acceptingRows_tableRows8, acceptingRows_tableRowsEF, tableRows0to7_eq,
    tableRows9toD_eq]
  simp only [acceptingRows_cons, acceptingRows_nil, opRow_accepts, nRow_accepts,
    wordRow_accepts (p := 0x00E0) rfl, wordRow_accepts (p := 0x00EE) rfl]
  generalize hd : decode w = d
  unfold decode at hd
  split at hd <;> rename_i hop <;> subst hd
  case h_1 =>
    by_cases hcls : w = 0x00E0#16
    · subst hcls; decide
    by_cases hret : w = 0x00EE#16
    · subst hret; decide
    · simp [hop, decodeGroup0, hcls, hret]
  case h_6 | h_10 => by_cases hn : nField w = 0#4 <;> simp [hop, hn, Instr.mnemonic]
  case h_17 => exact absurd (nibble_cases (opField w)) (by simp_all)
  all_goals simp [hop, Instr.mnemonic]

/-! ### The obligations -/

/-- Settles O1: by cases on the instruction, as its format's fields are read back. -/
theorem decodeOfEncodeIsTheInstruction : Obligations.DecodeOfEncodeIsTheInstruction :=
  fun _ h => decode_encode h

/-- Settles O2: the encoding by the decoder's inversion, the form because a row count read is one modulo 16. -/
theorem encodeOfDecodedIsTheWord : Obligations.EncodeOfDecodedIsTheWord :=
  fun _ _ h => ⟨wellFormed_of_decode h, encode_of_decode h⟩

/-- Settles O3: the rows' masks are conditions on the fields the decoder looks at. -/
theorem decodeIsTheUniqueTableRow : Obligations.DecodeIsTheUniqueTableRow :=
  fun w => acceptingRows_eq_decode w

/-- Settles O4: the groups' own lists of illegal selectors, put together by the op nibble. -/
theorem illegalWordsAreTheListedOnes : Obligations.IllegalWordsAreTheListedOnes := by
  intro w
  rw [decode_eq_none_iff, decodeGroup0_eq_none_iff, decodeGroup8_eq_none_iff, decodeGroupE_eq_none_iff,
    decodeGroupF_eq_none_iff]

/-- Settles O5: each pattern is the encoding of the instruction, which is read from no other word. -/
theorem remainingPatternsDecode : Obligations.RemainingPatternsDecode :=
  fun _ _ _ _ _ => ⟨decode_eq_some_iff rfl, decode_eq_some_iff rfl, decode_eq_some_iff rfl, decode_eq_some_iff rfl,
    decode_eq_some_iff rfl, decode_eq_some_iff rfl, decode_eq_some_iff rfl, decode_eq_drw_iff, decode_eq_some_iff rfl,
    decode_eq_some_iff rfl, decode_eq_some_iff rfl, decode_eq_some_iff rfl, decode_eq_some_iff rfl,
    decode_eq_some_iff rfl, decode_eq_some_iff rfl⟩

/-- Settles O6: fifteen fixed words, decoded. -/
theorem specExampleWordsDecode : Obligations.SpecExampleWordsDecode := by
  unfold Obligations.SpecExampleWordsDecode
  decide

end Sys2Proof
end

section
/-! What a cycle and a step can do, by the transaction that comes next, and the obligations about the step and the host's
transactions: O7 to O10, O12 to O20, O59. -/

namespace Sys2Proof.Machine

/-! ### Outcomes -/

/-- However an instruction ends, it answers a next state. -/
theorem EndsAs.exists_next {s : State} {r : Result} (h : EndsAs s r) : ∃ t, r = .next t := by
  cases h <;> exact ⟨_, rfl⟩

/-- No key is found pressed exactly when the key vector is 0. -/
theorem State.firstPressedKey_eq_none_iff_keys {s : State} : s.firstPressedKey = none ↔ s.keys = 0 := by
  rw [State.firstPressedKey_eq_none]
  constructor
  · intro h
    refine BitVec.eq_of_getLsbD_eq fun k hk => ?_
    simpa [State.keyPressed] using h ⟨k, hk⟩
  · intro h k
    simp [State.keyPressed, h]

/-! ### The cycle of a running and of a halted block -/

theorem runCycle_of_halted {s : State} {r : FaultRecord} (h : s.runState = .halted r) :
    runCycle s = .next { s with status := some (.fault r) } := by simp [runCycle, h]

theorem runCycle_of_running {s : State} (h : s.runState = .running) : runCycle s = runInstruction s := by
  simp [runCycle, h]

theorem runInstruction_of_outside {s : State} (h : 0xFFE < s.pc.toNat) :
    runInstruction s = .next (s.raise (.outOfBounds (max s.pc.toNat 0x1000))) := by
  simp [runInstruction, fetchFault_of_gt h]

theorem runInstruction_of_illegal {s : State} (h : s.pc.toNat ≤ 0xFFE) (hd : decode s.fetchWord = none) :
    runInstruction s = .next (s.raise (.decodeError s.fetchWord)) := by
  simp [runInstruction, fetchFault_of_le h, hd]

theorem runInstruction_of_decode {s : State} {i : Instr} (h : s.pc.toNat ≤ 0xFFE)
    (hd : decode s.fetchWord = some i) : runInstruction s = exec i s := by
  simp [runInstruction, fetchFault_of_le h, hd]

/-- A running block runs the instruction it fetches. -/
theorem runCycle_of_decode {s : State} {i : Instr} (hrun : s.runState = .running) (hpc : s.pc.toNat ≤ 0xFFE)
    (hd : decode s.fetchWord = some i) : runCycle s = exec i s := by
  rw [runCycle_of_running hrun, runInstruction_of_decode hpc hd]

/-- Everything a fetch can lead to: no word, an illegal word, or an instruction. -/
theorem runInstruction_cases (s : State) :
    (0xFFE < s.pc.toNat ∧ runInstruction s = .next (s.raise (.outOfBounds (max s.pc.toNat 0x1000)))) ∨
    (s.pc.toNat ≤ 0xFFE ∧ decode s.fetchWord = none ∧
      runInstruction s = .next (s.raise (.decodeError s.fetchWord))) ∨
    (s.pc.toNat ≤ 0xFFE ∧ ∃ i, decode s.fetchWord = some i ∧ runInstruction s = exec i s) := by
  rcases Nat.lt_or_ge 0xFFE s.pc.toNat with h | h
  · exact .inl ⟨h, runInstruction_of_outside h⟩
  · cases hd : decode s.fetchWord with
    | none => exact .inr (.inl ⟨h, rfl, runInstruction_of_illegal h hd⟩)
    | some i => exact .inr (.inr ⟨h, i, rfl, runInstruction_of_decode h hd⟩)

/-- A cycle of a running block ends as an instruction does. -/
theorem runInstruction_endsAs (s : State) : EndsAs s (runInstruction s) := by
  rcases runInstruction_cases s with ⟨_, e⟩ | ⟨_, _, e⟩ | ⟨_, i, _, e⟩ <;> rw [e]
  · exact .fault _
  · exact .fault _
  · exact exec_endsAs i s

/-- A cycle always answers a next state. -/
theorem runCycle_exists_next (s : State) : ∃ t, runCycle s = .next t := by
  cases h : s.runState with
  | running => rw [runCycle_of_running h]; exact (runInstruction_endsAs s).exists_next
  | halted r => exact ⟨_, runCycle_of_halted h⟩

/-- No cycle touches the host's side. -/
theorem runCycle_host {s t : State} (h : runCycle s = .next t) : t.host = s.host ∧ t.draws = s.draws := by
  cases hr : s.runState with
  | halted r =>
    rw [runCycle_of_halted hr] at h
    cases h
    exact ⟨rfl, rfl⟩
  | running =>
    have e := runInstruction_endsAs s
    rw [← runCycle_of_running hr, h] at e
    cases e with
    | fault c => exact ⟨rfl, rfl⟩
    | wait _ => exact ⟨rfl, rfl⟩
    | commit u _ hh hd => exact ⟨hh, hd⟩

/-! ### Load -/

theorem State.loadRom_of_fits {s : State} {rom : List Byte} (h : rom.length ≤ 3584) :
    s.loadRom rom = { s with loadOpen := false, mem := s.mem.writeList 0x200 rom }.committed := by
  simp [State.loadRom, show ¬ 3584 < rom.length by omega]

theorem State.loadRom_of_tooLong {s : State} {rom : List Byte} (h : 3584 < rom.length) :
    s.loadRom rom = { s with loadOpen := false }.halt ⟨.loadError rom.length, 0x200⟩ := by
  simp [State.loadRom, h]

theorem State.loadRom_host (s : State) (rom : List Byte) :
    (s.loadRom rom).host = s.host ∧ (s.loadRom rom).draws = s.draws := by
  unfold State.loadRom
  split <;> exact ⟨rfl, rfl⟩

/-! ### The step, by the transaction that comes next -/

theorem step_of_reset {s : State} (h : s.nextTransaction = .reset) : step s = .next s.afterTaking.resetBlock := by
  simp [step, h, transact]

theorem step_of_load_open {s : State} {rom : List Byte} (h : s.nextTransaction = .load rom)
    (ho : s.loadOpen = true) : step s = .next (s.afterTaking.loadRom rom) := by
  simp [step, h, transact, ho]

theorem step_of_load_closed {s : State} {rom : List Byte} (h : s.nextTransaction = .load rom)
    (ho : s.loadOpen = false) : step s = .refused .loadOutsideSlot := by
  simp [step, h, transact, ho]

theorem State.nextTransaction_of_cons {s : State} {tr : Transaction} {rest : List Transaction}
    (h : s.host = tr :: rest) : s.nextTransaction = tr := by simp [State.nextTransaction, h]

theorem State.nextTransaction_of_nil {s : State} (h : s.host = []) : s.nextTransaction = s.freeTransaction := by
  simp [State.nextTransaction, h]

/-- Everything a step to a next state can be. -/
theorem step_cases {s t : State} (h : step s = .next t) :
    (s.nextTransaction = .reset ∧ t = s.afterTaking.resetBlock) ∨
    (∃ rom, s.nextTransaction = .load rom ∧ s.loadOpen = true ∧ t = s.afterTaking.loadRom rom) ∨
    (∃ keys rnd, s.nextTransaction = .cycle keys rnd ∧ runCycle (s.afterTaking.sample keys rnd) = .next t) ∨
    (s.nextTransaction = .tick ∧ t = s.afterTaking.tick) := by
  cases hn : s.nextTransaction with
  | reset =>
    rw [step_of_reset hn] at h
    exact .inl ⟨rfl, by simpa using h.symm⟩
  | load rom =>
    cases ho : s.loadOpen with
    | true =>
      rw [step_of_load_open hn ho] at h
      exact .inr (.inl ⟨rom, rfl, rfl, by simpa using h.symm⟩)
    | false =>
      rw [step_of_load_closed hn ho] at h
      cases h
  | cycle keys rnd =>
    rw [step_of_cycle hn] at h
    exact .inr (.inr (.inl ⟨keys, rnd, rfl, h⟩))
  | tick =>
    rw [step_of_tick hn] at h
    exact .inr (.inr (.inr ⟨rfl, by simpa using h.symm⟩))

/-- The host's side after a step is what taking the transaction leaves. -/
theorem step_host {s t : State} (h : step s = .next t) :
    t.host = s.afterTaking.host ∧ t.draws = s.afterTaking.draws := by
  rcases step_cases h with ⟨_, rfl⟩ | ⟨rom, _, _, rfl⟩ | ⟨keys, rnd, _, hc⟩ | ⟨_, rfl⟩
  · exact ⟨rfl, rfl⟩
  · exact State.loadRom_host _ rom
  · simpa using runCycle_host hc
  · exact ⟨rfl, rfl⟩

/-! ### The obligations about the step -/

/-- Settles O7: the listed and the free transaction, each a cycle of a running block that fetches the instruction. -/
theorem stepExecutesTheFetchedInstruction : Obligations.StepExecutesTheFetchedInstruction := by
  intro s i hrun hpc hd
  refine ⟨fun keys rnd rest hh => ?_, fun hh => ?_⟩
  · rw [step_of_cons hh]
    exact runCycle_of_decode hrun hpc hd
  · rw [step_of_nil hh]
    rcases State.freeTransaction_cases s with ⟨hf, e⟩ | ⟨hf, e⟩ <;> rw [e, hf]
    · rfl
    · exact runCycle_of_decode hrun hpc hd

/-- Settles O8: the fetch's fault, the larger of pc and 0x1000 being 0x1000 at 0xFFF and pc above. -/
theorem fetchOutsideMemoryFaults : Obligations.FetchOutsideMemoryFaults := by
  intro s keys rnd hrun hn hpc
  have hmax : max s.pc.toNat 0x1000 = if s.pc = 0xFFF then 0x1000 else s.pc.toNat := by
    split
    · rename_i h; rw [h]; rfl
    · rename_i h
      have : s.pc.toNat ≠ 0xFFF := fun e => h (BitVec.eq_of_toNat_eq e)
      omega
  rw [step_of_cycle hn, runCycle_of_running (by simpa using hrun), runInstruction_of_outside (by simpa using hpc)]
  simp [State.raise, hmax]

/-- Settles O9: a word the decoder rejects, fetched. -/
theorem fetchedIllegalWordFaults : Obligations.FetchedIllegalWordFaults := by
  intro s keys rnd hrun hn hpc hd
  have hw : (s.afterTaking.sample keys rnd).fetchWord = s.fetchWord := by simp [State.fetchWord]
  rw [step_of_cycle hn, runCycle_of_running (by simpa using hrun),
    runInstruction_of_illegal (by simpa using hpc) (hw ▸ hd), hw]
  simp [State.raise]

/-- Settles O10: the cycle of a halted block writes the status alone. -/
theorem haltedCycleReturnsTheLatchedFault : Obligations.HaltedCycleReturnsTheLatchedFault := by
  intro s r keys rnd hr hn
  refine ⟨_, by rw [step_of_cycle hn, runCycle_of_halted (by simpa using hr)], rfl, by simpa using hr, by simp, ?_⟩
  simp [SameRegs, SameI, SameStack, SameTimers, SameDisplay, SameMemory, State.reg]

/-- Settles O12: of the ways an instruction ends only the fault leaves a running block halted. -/
theorem faultingInstructionCommitsNothing : Obligations.FaultingInstructionCommitsNothing := by
  intro i s t r hrun h hr
  have e := exec_endsAs i s
  rw [h] at e
  cases e with
  | fault c =>
    obtain rfl : FaultRecord.mk c s.pc = r := by simpa using hr
    exact ⟨rfl, rfl⟩
  | wait _ => simp [hrun] at hr
  | commit u hu _ _ => simp [hu, hrun] at hr

/-- Settles O13: the three ways an instruction ends, each with its status. -/
theorem statusSaysHowTheCycleEnded : Obligations.StatusSaysHowTheCycleEnded := by
  intro s t keys rnd hrun hn h
  have e := runInstruction_endsAs (s.afterTaking.sample keys rnd)
  rw [← runCycle_of_running (by simpa using hrun), ← step_of_cycle hn, h] at e
  cases e with
  | fault c => exact .inr (.inr ⟨⟨c, s.pc⟩, by simp [State.raise], rfl⟩)
  | wait hk => exact .inr (.inl ⟨rfl, State.firstPressedKey_eq_none_iff_keys.mp hk⟩)
  | commit u hu _ _ => exact .inl ⟨rfl, by simpa [hrun] using hu⟩

/-- Settles O14: by the transaction that comes next; only Load asks for its slot. -/
theorem stepAnswersNextUnlessLoadIsLate : Obligations.StepAnswersNextUnlessLoadIsLate := by
  intro s
  cases hn : s.nextTransaction with
  | reset => exact .inl ⟨_, step_of_reset hn⟩
  | load rom =>
    cases ho : s.loadOpen with
    | true => exact .inl ⟨_, step_of_load_open hn ho⟩
    | false => exact .inr ⟨rom, rfl, rfl, step_of_load_closed hn ho⟩
  | cycle keys rnd => rw [step_of_cycle hn]; exact .inl (runCycle_exists_next _)
  | tick => exact .inl ⟨_, step_of_tick hn⟩

/-- Settles O59: the head of the list or the free transaction by definition, what is left of the schedule for every
transaction at once. -/
theorem eachStepTakesTheNextTransaction : Obligations.EachStepTakesTheNextTransaction := by
  refine ⟨fun _ _ _ h => State.nextTransaction_of_cons h, fun _ h => State.nextTransaction_of_nil h, fun s t h => ?_⟩
  obtain ⟨hhost, hdraws⟩ := step_host h
  exact ⟨by simpa using hhost, hdraws.trans (State.afterTaking_draws s)⟩

/-! ### The obligations about the host's transactions -/

/-- Settles O15: a step that takes a Tick ticks, and the tick writes the two timers alone. -/
theorem tickCountsBothTimersDown : Obligations.TickCountsBothTimersDown := by
  intro s hn
  refine ⟨_, step_of_tick hn, by simpa using countDown_toNat s.DT, by simpa using countDown_toNat s.ST, ?_⟩
  simp [SameRegs, SameI, SameStack, SameDisplay, SameMemory, State.reg, State.afterTaking_draws]

/-- What an address of the font, and any other, reads as once memory is emptied. -/
theorem Memory.read_empty (font : Font) (a : Nat) :
    Memory.read ⟨font, []⟩ a = if h : a < 80 then font[a] else 0 := rfl

/-- Settles O16: reset writes each item; memory without cells reads as the font, then 0. -/
theorem resetSetsEveryItem : Obligations.ResetSetsEveryItem := by
  intro s rest hh
  refine ⟨_, step_of_reset (State.nextTransaction_of_cons hh), fun r => ?_, rfl, rfl, rfl, fun j => ?_, rfl, rfl,
    fun c r => Framebuffer.pixel_blank c r, rfl, rfl, ?_, fun a h => ?_, fun a h => ?_⟩
  · simp [State.resetBlock, State.reset, State.reg]
  · simp [State.resetBlock, State.reset]
  · simp [State.resetBlock, hh]
  · simp [State.resetBlock, Memory.read_empty, h]
  · simp [State.resetBlock, Memory.read_empty, show ¬ a < 80 by omega]

/-- Settles O17: the reset state's fields and its 80 font bytes, read out. -/
theorem startStateHoldsResetValues : Obligations.StartStateHoldsResetValues := by
  refine ⟨fun r => ?_, rfl, rfl, rfl, fun j => ?_, rfl, rfl, fun c r => Framebuffer.pixel_blank c r, rfl, rfl,
    by decide, by decide, by decide, by decide, fun a h => ?_⟩
  · simp [State.reset, State.reg]
  · simp [State.reset]
  · simp [State.reset, Memory.read_empty, show ¬ a < 80 by omega]

/-- Settles O18: the bytes written by Load and no others, in its slot. -/
theorem loadCopiesTheImage : Obligations.LoadCopiesTheImage := by
  intro s rom rest hh ho hlen
  refine ⟨_, step_of_load_open (State.nextTransaction_of_cons hh) ho, ?_⟩
  rw [State.loadRom_of_fits hlen]
  have hdraws : s.afterTaking.draws = s.draws := by simp [State.afterTaking_draws, hh]
  refine ⟨fun k hk => ?_, ⟨by simp, fun p hp => ?_⟩, ?_⟩
  · exact Memory.read_writeList_inside _ rom hk
  · simpa using Memory.read_writeList_outside s.mem rom hp
  · simp [SameRegs, SameI, SameStack, SameTimers, SameDisplay, State.reg, hdraws, hh]

/-- Settles O19: Load in its slot, of an image that is too long. -/
theorem loadOfTooLongImageHalts : Obligations.LoadOfTooLongImageHalts := by
  intro s rom rest hh ho hlen
  rw [step_of_cons hh, transact, if_pos ho, State.loadRom_of_tooLong hlen]
  rfl

/-- Settles O20: Load when its slot is closed. -/
theorem loadOutsideItsSlotIsRefused : Obligations.LoadOutsideItsSlotIsRefused :=
  fun _ _ _ hh ho => step_of_load_closed (State.nextTransaction_of_cons hh) ho

end Sys2Proof.Machine
end

section
/-! What an instruction can commit, said once for all 34 (10_state.md R25 to R35, 20_memory.md R57), and what follows from
it: the rules of who writes what (O23 to O26), the block's invariant (O21, O22) and that only Reset leaves HALTED (O11). -/

namespace Sys2Proof.Machine

/-! ### What an instruction can commit -/

/-- The instruction may change general register `r`, were it not VF (10_state.md R25). -/
def WritesRegister (i : Instr) (r : Reg) : Prop :=
  (∃ kk, i = .ldVB r kk ∨ i = .addVB r kk ∨ i = .rnd r kk) ∨ WritesByGroup8 i r ∨ i = .ldVDT r ∨ i = .ldVK r ∨
    ∃ x : Reg, r ≤ x ∧ i = .ldVMem x

/-- `u` is a state the instruction can commit from `s`: which fields differ from `s`, and how far pc can go. -/
inductive Commits (s : State) : Instr → State → Prop where
  | display {i : Instr} (hi : i = .cls ∨ ∃ x y n, i = .drw x y n) (fb : Framebuffer) (V : Vector Byte 16)
      (hV : ∀ r : Reg, r ≠ Reg.vf → V[r] = s.V[r]) : Commits s i { s.advance with fb := fb, V := V }
  | ret (j : Fin 16) : Commits s .ret { s with pc := s.stack[j], sp := poppedIndex j }
  | call (nnn : BitVec 12) (j : Fin 16) :
      Commits s (.call nnn) { s with sp := some j, stack := s.stack.set j (s.pc + 2), pc := addrWord nnn }
  | jump {i : Instr} (p : Word) (hp : s.pc.toNat ≤ 0xFFE → p.toNat ≤ 0x10FE) : Commits s i (s.jumpTo p)
  | regs {i : Instr} (V : Vector Byte 16) (hV : ∀ r : Reg, r ≠ Reg.vf → V[r] ≠ s.V[r] → WritesRegister i r) :
      Commits s i { s.advance with V := V }
  | index {i : Instr} (hi : (∃ nnn, i = .ldI nnn) ∨ (∃ x, i = .addIV x) ∨ ∃ x, i = .ldFV x) (a : Word) :
      Commits s i { s.advance with I := a }
  | memory {i : Instr} (hi : (∃ x, i = .ldBV x) ∨ ∃ x, i = .ldMemV x) (bs : List Byte)
      (hbs : AccessInRange s bs.length) : Commits s i { s.advance with mem := s.mem.writeList s.I.toNat bs }
  | delay (x : Reg) (b : Byte) : Commits s (.ldDTV x) { s.advance with DT := b }
  | sound (x : Reg) (b : Byte) : Commits s (.ldSTV x) { s.advance with ST := b }

/-- A fault an instruction can take from `s`, a fetch apart: its cause agrees with the stack and its info with the ranges
of 60_exceptions.md R120. -/
inductive Raises (s : State) : FaultCause → Prop where
  | stackOverflow (h : s.sp = some 15) : Raises s .stackOverflow
  | stackUnderflow (h : s.sp = none) : Raises s .stackUnderflow
  | outOfBounds {a : Nat} (h : (16 ≤ a ∧ a ≤ 255) ∨ (0x1000 ≤ a ∧ a ≤ 0xFFFF)) : Raises s (.outOfBounds a)

/-- An instruction takes a fault, waits, or commits. -/
inductive Ends (s : State) (i : Instr) : Result → Prop where
  | fault {c : FaultCause} (h : Raises s c) : Ends s i (.next (s.raise c))
  | wait : Ends s i (.next s.waiting)
  | commit {u : State} (h : Commits s i u) : Ends s i (.next u.committed)

/-! ### The shared operations end so -/

theorem ends_withAccess {s done : State} {i : Instr} {n : Nat} (h : AccessInRange s n → Commits s i done) :
    Ends s i (.next (s.withAccess n done)) := by
  rcases State.withAccess_cases s n done with ⟨hr, e⟩ | ⟨a, hlo, hhi, e⟩ <;> rw [e]
  · exact .commit (h hr)
  · have := s.I.isLt
    exact .fault (.outOfBounds (.inr ⟨hlo, by omega⟩))

theorem ends_withKeyIndex {s done : State} {i : Instr} (k : Byte) (h : Commits s i done) :
    Ends s i (.next (s.withKeyIndex k done)) := by
  rcases State.withKeyIndex_cases s k done with ⟨_, e⟩ | ⟨hk, e⟩ <;> rw [e]
  · exact .commit h
  · have := k.isLt
    exact .fault (.outOfBounds (.inl ⟨by omega, by omega⟩))

/-- A skip goes at most 4 on. -/
theorem commits_skip (s : State) (i : Instr) (c : Bool) : Commits s i (s.advance.skipIf c) := by
  rw [skipIf_advance]
  refine .jump _ fun h => ?_
  cases c <;> simp <;> omega

/-- One register written. -/
theorem commits_setReg {s : State} {i : Instr} {x : Reg} (h : WritesRegister i x) (b : Byte) :
    Commits s i (s.advance.setReg x b) := by
  refine .regs _ fun r _ hr => ?_
  by_contra hx
  exact hr (State.reg_setReg_of_ne s b fun e => hx (e ▸ h))

/-- One register written, then VF. -/
theorem commits_setReg_setVF {s : State} {i : Instr} {x : Reg} (h : WritesRegister i x) (b f : Byte) :
    Commits s i ((s.advance.setReg x b).setVF f) := by
  refine .regs _ fun r hvf hr => ?_
  by_contra hx
  refine hr ?_
  have h1 := State.reg_setVF (s.advance.setReg x b) r f
  rw [if_neg hvf, State.reg_setReg_of_ne s.advance b fun e : r = x => hx (e ▸ h)] at h1
  exact h1

/-- VF written, then one register. -/
theorem commits_setVF_setReg {s : State} {i : Instr} {x : Reg} (h : WritesRegister i x) (b f : Byte) :
    Commits s i ((s.advance.setVF f).setReg x b) := by
  refine .regs _ fun r hvf hr => ?_
  by_contra hx
  refine hr ?_
  have h1 := State.reg_setReg_of_ne (s.advance.setVF f) b fun e : r = x => hx (e ▸ h)
  rw [State.reg_setVF, if_neg hvf] at h1
  exact h1

/-- A block of registers written is a change of the registers alone. -/
theorem State.setRegsFrom_eq (s : State) (k : Nat) (bs : List Byte) :
    s.setRegsFrom k bs = { s with V := (s.setRegsFrom k bs).V } := by
  induction bs generalizing s k with
  | nil => rfl
  | cons b bs ih => rw [State.setRegsFrom, ih]; rfl

theorem commits_setRegsFrom {s : State} {x : Reg} {bs : List Byte} (h : bs.length = x.val + 1) :
    Commits s (.ldVMem x) (s.advance.setRegsFrom 0 bs) := by
  rw [State.setRegsFrom_eq]
  refine .regs _ fun r _ hr => ?_
  refine .inr (.inr (.inr (.inr ⟨x, ?_, rfl⟩)))
  by_contra hx
  have hx' : x.val < r.val := not_le.mp hx
  refine hr ((State.reg_setRegsFrom s.advance 0 bs r (by omega)).trans ?_)
  rw [List.getElem?_eq_none (by omega)]
  rfl

/-! ### RET and CALL -/

theorem exec_ret_of_empty {s : State} (h : s.sp = none) : exec .ret s = .next (s.raise .stackUnderflow) := by
  simp [exec, execRet, h]

theorem exec_ret_of_top {s : State} {j : Fin 16} (h : s.sp = some j) :
    exec .ret s = .next { s with pc := s.stack[j], sp := poppedIndex j }.committed := by
  simp [exec, execRet, h]

theorem exec_call_of_full {s : State} (nnn : BitVec 12) (h : s.sp = some 15) :
    exec (.call nnn) s = .next (s.raise .stackOverflow) := by
  simp [exec, execCall, pushedIndex_eq_none.mpr h]

theorem exec_call_of_room {s : State} {j : Fin 16} (nnn : BitVec 12) (h : pushedIndex s.sp = some j) :
    exec (.call nnn) s =
      .next { s with sp := some j, stack := s.stack.set j (s.pc + 2), pc := addrWord nnn }.committed := by
  simp [exec, execCall, h]

/-! ### Every instruction -/

theorem exec_ends (i : Instr) (s : State) : Ends s i (exec i s) := by
  cases i
  case cls => exact .commit (.display (.inl rfl) _ s.V fun _ _ => rfl)
  case drw x y n =>
    refine ends_withAccess fun _ => .display (.inr ⟨x, y, n, rfl⟩) _ (s.V.set Reg.vf _) fun r hr => ?_
    exact State.reg_setReg_of_ne s _ hr
  case ret =>
    cases hsp : s.sp with
    | none => rw [exec_ret_of_empty hsp]; exact .fault (.stackUnderflow hsp)
    | some j => rw [exec_ret_of_top hsp]; exact .commit (.ret j)
  case call nnn =>
    cases hj : pushedIndex s.sp with
    | none =>
      have hfull := pushedIndex_eq_none.mp hj
      rw [exec_call_of_full nnn hfull]
      exact .fault (.stackOverflow hfull)
    | some j => rw [exec_call_of_room nnn hj]; exact .commit (.call nnn j)
  case jp nnn => exact .commit (.jump _ fun _ => by rw [addrWord_toNat]; omega)
  case jpV0 nnn => exact .commit (.jump _ fun _ => by rw [addrWord_add_byteWord_toNat]; omega)
  case seVB | sneVB | seVV | sneVV => exact .commit (commits_skip s _ _)
  case skp | sknp => exact ends_withKeyIndex _ (commits_skip s _ _)
  case ldVB x kk => exact .commit (commits_setReg (.inl ⟨kk, .inl rfl⟩) _)
  case addVB x kk => exact .commit (commits_setReg (.inl ⟨kk, .inr (.inl rfl)⟩) _)
  case rnd x kk => exact .commit (commits_setReg (.inl ⟨kk, .inr (.inr rfl)⟩) _)
  case ldVV x y | orVV x y | andVV x y | xorVV x y =>
    exact .commit (commits_setReg (.inr (.inl ⟨y, by simp⟩)) _)
  case addVV x y => exact .commit (commits_setReg_setVF (.inr (.inl ⟨y, by simp⟩)) _ _)
  case subVV x y | subnVV x y | shr x y | shl x y =>
    exact .commit (commits_setVF_setReg (.inr (.inl ⟨y, by simp⟩)) _ _)
  case ldVDT x => exact .commit (commits_setReg (.inr (.inr (.inl rfl))) _)
  case ldVK x =>
    simp only [exec, execLdVK]
    split
    · exact .wait
    · exact .commit (commits_setReg (.inr (.inr (.inr (.inl rfl)))) _)
  case ldDTV x => exact .commit (.delay x _)
  case ldSTV x => exact .commit (.sound x _)
  case ldI nnn => exact .commit (.index (.inl ⟨nnn, rfl⟩) _)
  case addIV x => exact .commit (.index (.inr (.inl ⟨x, rfl⟩)) _)
  case ldFV x => exact .commit (.index (.inr (.inr ⟨x, rfl⟩)) _)
  case ldBV x => exact ends_withAccess fun h => .memory (.inl ⟨x, rfl⟩) (bcdDigits (s.reg x)) h
  case ldMemV x =>
    exact ends_withAccess fun h => .memory (.inr ⟨x, rfl⟩) (s.regsUpTo x) (by rwa [State.regsUpTo_length])
  case ldVMem x => exact ends_withAccess fun _ => commits_setRegsFrom (by simp)

/-- Everything the next state of an instruction can be. -/
theorem exec_next_cases {i : Instr} {s t : State} (h : exec i s = .next t) :
    (∃ c, Raises s c ∧ t = s.raise c) ∨ t = s.waiting ∨ ∃ u, Commits s i u ∧ t = u.committed := by
  have e := exec_ends i s
  rw [h] at e
  cases e with
  | fault hc => exact .inl ⟨_, hc, rfl⟩
  | wait => exact .inr (.inl rfl)
  | commit hu => exact .inr (.inr ⟨_, hu, rfl⟩)

/-! ### Who writes what -/

/-- Settles O23: of what an instruction can commit only the delay timer's write has another DT, and only the sound
timer's another ST. -/
theorem onlyTimerLoadsWriteTimers : Obligations.OnlyTimerLoadsWriteTimers := by
  intro i s t h
  rcases exec_next_cases h with ⟨c, _, rfl⟩ | rfl | ⟨u, hu, rfl⟩
  · exact ⟨absurd rfl, absurd rfl⟩
  · exact ⟨absurd rfl, absurd rfl⟩
  · cases hu with
    | delay x b => exact ⟨fun _ => ⟨x, rfl⟩, absurd rfl⟩
    | sound x b => exact ⟨absurd rfl, fun _ => ⟨x, rfl⟩⟩
    | _ => exact ⟨absurd rfl, absurd rfl⟩

/-- Settles O24: of what an instruction can commit only the display's write has another framebuffer, and only the store
another memory. -/
theorem onlyDisplayAndStoreInstructionsWriteThem : Obligations.OnlyDisplayAndStoreInstructionsWriteThem := by
  intro i s t h
  have samePixels : ¬ ∃ c r, s.fb.pixel c r ≠ s.fb.pixel c r := fun ⟨_, _, hne⟩ => hne rfl
  have sameBytes : ¬ ∃ a, s.mem.read a ≠ s.mem.read a := fun ⟨_, hne⟩ => hne rfl
  rcases exec_next_cases h with ⟨c, _, rfl⟩ | rfl | ⟨u, hu, rfl⟩
  · exact ⟨(absurd · samePixels), (absurd · sameBytes)⟩
  · exact ⟨(absurd · samePixels), (absurd · sameBytes)⟩
  · cases hu with
    | display hi => exact ⟨fun _ => hi, (absurd · sameBytes)⟩
    | memory hi => exact ⟨(absurd · samePixels), fun _ => hi⟩
    | _ => exact ⟨(absurd · samePixels), (absurd · sameBytes)⟩

/-- Settles O25: of what an instruction can commit only CALL's has another slot, CALL's and RET's another sp, and the
index register's write another I. -/
theorem onlyListedInstructionsWriteStackAndI : Obligations.OnlyListedInstructionsWriteStackAndI := by
  intro i s t h
  have sameSlots : ¬ ∃ j : Fin 16, s.stack[j] ≠ s.stack[j] := fun ⟨_, hne⟩ => hne rfl
  rcases exec_next_cases h with ⟨c, _, rfl⟩ | rfl | ⟨u, hu, rfl⟩
  · exact ⟨(absurd · sameSlots), absurd rfl, absurd rfl⟩
  · exact ⟨(absurd · sameSlots), absurd rfl, absurd rfl⟩
  · cases hu with
    | ret j => exact ⟨(absurd · sameSlots), fun _ => .inl rfl, absurd rfl⟩
    | call nnn j => exact ⟨fun _ => ⟨nnn, rfl⟩, fun _ => .inr ⟨nnn, rfl⟩, absurd rfl⟩
    | index hi => exact ⟨(absurd · sameSlots), absurd rfl, fun _ => hi⟩
    | _ => exact ⟨(absurd · sameSlots), absurd rfl, absurd rfl⟩

/-- Settles O26: of what an instruction can commit only a register write has another register than VF. -/
theorem onlyListedInstructionsWriteRegisters : Obligations.OnlyListedInstructionsWriteRegisters := by
  intro i s t r h hvf hr
  rcases exec_next_cases h with ⟨c, _, rfl⟩ | rfl | ⟨u, hu, rfl⟩
  · exact absurd rfl hr
  · exact absurd rfl hr
  · cases hu with
    | display _ _ V hV => exact absurd (hV r hvf) hr
    | regs V hV => exact hV r hvf hr
    | _ => exact absurd rfl hr

/-! ### The invariant -/

/-- The invariant looks at memory, pc, the stack and the run state; Load's slot may only close. -/
theorem Inv.of_same {s t : State} (h : Inv s) (hmem : t.mem = s.mem) (hpc : t.pc = s.pc) (hsp : t.sp = s.sp)
    (hstack : t.stack = s.stack) (hrun : t.runState = s.runState) (hload : t.loadOpen = true → s.loadOpen = true) :
    Inv t where
  memory := hmem ▸ h.memory
  pcBound := hpc ▸ h.pcBound
  returns := hstack ▸ h.returns
  record := by rw [hrun, hpc]; exact h.record
  overflow := by rw [hrun, hsp]; exact h.overflow
  underflow := by rw [hrun, hsp]; exact h.underflow
  loadSlot := fun ho => by rw [hrun, hpc]; exact h.loadSlot (hload ho)

/-- A running block whose Load is closed needs the bounds alone. -/
theorem inv_of_running {t : State} (hmem : t.mem.wf) (hpc : t.pc.toNat ≤ 0x10FE)
    (hstack : ∀ j : Fin 16, t.stack[j].toNat ≤ 0x1000) (hrun : t.runState = .running) (hload : t.loadOpen = false) :
    Inv t where
  memory := hmem
  pcBound := hpc
  returns := hstack
  record := fun r h => by simp [hrun] at h
  overflow := fun p h => by simp [hrun] at h
  underflow := fun p h => by simp [hrun] at h
  loadSlot := fun h => by simp [hload] at h

/-- A fault with a legal record that agrees with the stack, taken once Load is closed, keeps the invariant. -/
theorem Inv.halt {s : State} {r : FaultRecord} (h : Inv s) (hload : s.loadOpen = false) (hlegal : r.legal)
    (hpc : r.pc0 = s.pc) (hover : r.cause = .stackOverflow → s.sp = some 15)
    (hunder : r.cause = .stackUnderflow → s.sp = none) : Inv (s.halt r) where
  memory := h.memory
  pcBound := h.pcBound
  returns := h.returns
  record := fun r' hr => by
    obtain rfl : r = r' := by simpa using hr
    exact ⟨hlegal, hpc⟩
  overflow := fun p hr => hover (by simpa using congrArg (fun x => x.cause) (show r = _ by simpa using hr))
  underflow := fun p hr => hunder (by simpa using congrArg (fun x => x.cause) (show r = _ by simpa using hr))
  loadSlot := fun ho => by simp [hload] at ho

/-- A fault of an instruction keeps the invariant. -/
theorem Inv.raise_of_raises {s : State} {c : FaultCause} (h : Inv s) (hload : s.loadOpen = false)
    (hpc : s.pc.toNat ≤ 0xFFE) (hc : Raises s c) : Inv (s.raise c) := by
  cases hc with
  | stackOverflow hsp => exact h.halt hload hpc rfl (fun _ => hsp) (fun e => nomatch e)
  | stackUnderflow hsp => exact h.halt hload hpc rfl (fun e => nomatch e) (fun _ => hsp)
  | outOfBounds ha => exact h.halt hload ha rfl (fun e => nomatch e) (fun e => nomatch e)

/-- A store whose addresses all lie in memory keeps the canonical form; one of no bytes does whatever I is. -/
theorem writeList_wf_of_inRange {s : State} {bs : List Byte} (h : s.mem.wf) (hbs : AccessInRange s bs.length) :
    (s.mem.writeList s.I.toNat bs).wf := by
  cases bs with
  | nil => exact h
  | cons b bs =>
    have hlast := hbs bs.length (by simp)
    exact Memory.writeList_wf h (by rw [List.length_cons]; omega)

/-- The fetch increment does not wrap where a word was fetched. -/
theorem add_two_toNat {pc : Word} (h : pc.toNat ≤ 0xFFE) : (pc + 2).toNat = pc.toNat + 2 :=
  BitVec.toNat_add_of_lt (show pc.toNat + 2 < 65536 by omega)

/-- What an instruction commits keeps the invariant, where it was fetched by a running block whose Load is closed. -/
theorem Inv.committed_of_commits {s u : State} {i : Instr} (h : Inv s) (hrun : s.runState = .running)
    (hload : s.loadOpen = false) (hpc : s.pc.toNat ≤ 0xFFE) (hu : Commits s i u) : Inv u.committed := by
  have hnext : (s.pc + 2).toNat ≤ 0x1000 := by rw [add_two_toNat hpc]; omega
  have hbound : (s.pc + 2).toNat ≤ 0x10FE := hnext.trans (by omega)
  cases hu with
  | ret j => exact inv_of_running h.memory ((h.returns j).trans (by omega)) h.returns hrun hload
  | call nnn j =>
    refine inv_of_running h.memory ?_ (fun k => ?_) hrun hload
    · show (addrWord nnn).toNat ≤ 0x10FE
      rw [addrWord_toNat]; omega
    · show (s.stack.set j (s.pc + 2))[k].toNat ≤ 0x1000
      rw [Fin.getElem_fin, Vector.getElem_set]
      split
      · exact hnext
      · exact h.returns k
  | jump p hp => exact inv_of_running h.memory (hp hpc) h.returns hrun hload
  | memory _ bs hbs => exact inv_of_running (writeList_wf_of_inRange h.memory hbs) hbound h.returns hrun hload
  | _ => exact inv_of_running h.memory hbound h.returns hrun hload

/-- A cycle's fetch and execution keep the invariant. -/
theorem Inv.runInstruction_next {s t : State} (h : Inv s) (hrun : s.runState = .running) (hload : s.loadOpen = false)
    (ht : runInstruction s = .next t) : Inv t := by
  have := s.pc.isLt
  rcases runInstruction_cases s with ⟨hpc, e⟩ | ⟨hpc, hd, e⟩ | ⟨hpc, i, _, e⟩ <;> rw [e] at ht
  · cases ht
    exact h.halt hload (.inr ⟨by omega, by omega⟩) rfl (fun e => nomatch e) (fun e => nomatch e)
  · cases ht
    exact h.halt hload ⟨hd, hpc⟩ rfl (fun e => nomatch e) (fun e => nomatch e)
  · rcases exec_next_cases ht with ⟨c, hc, rfl⟩ | rfl | ⟨u, hu, rfl⟩
    · exact h.raise_of_raises hload hpc hc
    · exact h.of_same rfl rfl rfl rfl rfl id
    · exact h.committed_of_commits hrun hload hpc hu

/-- A cycle, its inputs sampled, keeps the invariant. -/
theorem Inv.runCycle_next {s t : State} (h : Inv s) (hload : s.loadOpen = false) (ht : runCycle s = .next t) : Inv t := by
  cases hr : s.runState with
  | running => exact h.runInstruction_next hr hload (runCycle_of_running hr ▸ ht)
  | halted r =>
    rw [runCycle_of_halted hr] at ht
    cases ht
    exact h.of_same rfl rfl rfl rfl rfl id

/-- Reset establishes the invariant, whatever the font and the schedule. -/
theorem inv_resetBlock (s : State) : Inv s.resetBlock where
  memory := Memory.empty_wf _
  pcBound := by show (0x200 : Word).toNat ≤ _; decide
  returns := by show ∀ j : Fin 16, State.reset.stack[j].toNat ≤ _; decide
  record := fun _ h => nomatch h
  overflow := fun _ h => nomatch h
  underflow := fun _ h => nomatch h
  loadSlot := fun _ => ⟨rfl, rfl⟩

/-- Load in its slot keeps the invariant: the image fits into memory, or the block halts at 0x200 with its length. -/
theorem Inv.loadRom {s : State} (h : Inv s) (ho : s.loadOpen = true) (rom : List Byte) : Inv (s.loadRom rom) := by
  obtain ⟨hrun, hpc⟩ := h.loadSlot ho
  rcases Nat.lt_or_ge 3584 rom.length with hlen | hlen
  · rw [State.loadRom_of_tooLong hlen]
    have closed : Inv { s with loadOpen := false } := h.of_same rfl rfl rfl rfl rfl (fun e => nomatch e)
    exact closed.halt rfl ⟨hlen, rfl⟩ hpc.symm (fun e => nomatch e) (fun e => nomatch e)
  · rw [State.loadRom_of_fits hlen]
    exact inv_of_running (Memory.writeList_wf h.memory (by omega)) h.pcBound h.returns hrun rfl

/-- Settles O21: by the transaction taken; for a Cycle by what an instruction can commit. -/
theorem everyStepKeepsTheBlockInvariant : Obligations.EveryStepKeepsTheBlockInvariant := by
  intro s t h ht
  have taken : Inv s.afterTaking := h.of_same (by simp) (by simp) (by simp) (by simp) (by simp) (by simp)
  rcases step_cases ht with ⟨_, rfl⟩ | ⟨rom, _, ho, rfl⟩ | ⟨keys, rnd, _, hc⟩ | ⟨_, rfl⟩
  · exact inv_resetBlock _
  · exact taken.loadRom (by simpa using ho) rom
  · have sampled : Inv (s.afterTaking.sample keys rnd) := taken.of_same rfl rfl rfl rfl rfl (fun e => nomatch e)
    exact sampled.runCycle_next rfl hc
  · exact taken.of_same rfl rfl rfl rfl rfl id

/-- Settles O22: the start state is what Reset leaves of itself. -/
theorem startStateMeetsTheBlockInvariant : Obligations.StartStateMeetsTheBlockInvariant :=
  inv_resetBlock State.reset

/-- Settles O11: Load's slot being closed in a halted state, only Reset writes the run state. -/
theorem onlyResetLeavesHalted : Obligations.OnlyResetLeavesHalted := by
  intro s t r h hr ht
  rcases step_cases ht with ⟨hn, _⟩ | ⟨rom, _, ho, _⟩ | ⟨keys, rnd, _, hc⟩ | ⟨_, rfl⟩
  · exact .inr hn
  · have hrun := (h.loadSlot ho).1
    simp [hr] at hrun
  · rw [runCycle_of_halted (by simpa using hr)] at hc
    cases hc
    exact .inl (by simpa using hr)
  · exact .inl (by simpa using hr)

end Sys2Proof.Machine
end

section
/-! What each instruction does and leaves unchanged: control transfer, skips, arithmetic, the index register, timers and
the key wait (40_display.md to 45_timers_input.md), with the obligations O27, O30 to O33, O37 to O39, O42 to O48 and
O55 to O58. -/

namespace Sys2Proof.Machine

/-! ### Frames of committed states -/

theorem Completes.mono {i : Instr} {s : State} {P Q : State → Prop} (h : Completes i s P) (hPQ : ∀ t, P t → Q t) :
    Completes i s Q := by
  obtain ⟨t, ht, hP⟩ := h
  exact ⟨t, ht, hPQ t hP⟩

/-- Registers and pc written, and the status. -/
theorem sameButRegs_committed (s : State) (V : Vector Byte 16) (pc : Word) :
    SameButRegs s { s with V := V, pc := pc }.committed :=
  ⟨rfl, ⟨rfl, fun _ => rfl⟩, ⟨rfl, rfl⟩, fun _ _ => rfl, ⟨rfl, fun _ => rfl⟩, rfl, rfl, rfl, rfl, rfl, rfl⟩

/-- The address register and pc written, and the status. -/
theorem sameButI_committed (s : State) (a pc : Word) : SameButI s { s with I := a, pc := pc }.committed :=
  ⟨fun _ => rfl, ⟨rfl, fun _ => rfl⟩, ⟨rfl, rfl⟩, fun _ _ => rfl, ⟨rfl, fun _ => rfl⟩, rfl, rfl, rfl, rfl, rfl, rfl⟩

/-- The stack and pc written, and the status. -/
theorem sameButStack_committed (s : State) (sp : Option (Fin 16)) (stack : Vector Word 16) (pc : Word) :
    SameButStack s { s with sp := sp, stack := stack, pc := pc }.committed :=
  ⟨fun _ => rfl, rfl, ⟨rfl, rfl⟩, fun _ _ => rfl, ⟨rfl, fun _ => rfl⟩, rfl, rfl, rfl, rfl, rfl, rfl⟩

/-! ### CLS -/

/-- Settles O27: the two words of group 0x0, and the state CLS commits. -/
theorem clsClearsEveryPixel : Obligations.ClsClearsEveryPixel := by
  refine ⟨fun w => decode_eq_some_iff rfl, fun w hop hcls hret => ?_, fun s => ?_⟩
  · exact decode_eq_none_iff.mpr (.inl ⟨hop, decodeGroup0_eq_none_iff.mpr ⟨hcls, hret⟩⟩)
  · exact ⟨_, rfl, Framebuffer.pixel_blank, rfl, fun _ => rfl, rfl, ⟨rfl, fun _ => rfl⟩, ⟨rfl, rfl⟩,
      ⟨rfl, fun _ => rfl⟩, rfl, rfl, rfl, rfl, rfl, rfl⟩

/-! ### RET and CALL -/

theorem poppedIndex_of_pos {j : Fin 16} (h : 0 < j.val) : poppedIndex j = some ⟨j.val - 1, by omega⟩ := by
  simp [poppedIndex, h]

theorem poppedIndex_zero : poppedIndex 0 = none := rfl

/-- A stack with room has a next index. -/
theorem exists_pushedIndex {p : Option (Fin 16)} (h : p ≠ some 15) : ∃ j, pushedIndex p = some j :=
  Option.ne_none_iff_exists'.mp fun e => h (pushedIndex_eq_none.mp e)

/-- The next index is one higher, 0 from EMPTY. -/
theorem pushedIndex_spec {p : Option (Fin 16)} {j : Fin 16} (h : pushedIndex p = some j) :
    (p = none → j = 0) ∧ ∀ i, p = some i → j.val = i.val + 1 := by
  constructor
  · rintro rfl
    exact (Option.some.inj h).symm
  · rintro i rfl
    simp only [pushedIndex] at h
    split at h
    · exact congrArg Fin.val (Option.some.inj h).symm
    · cases h

/-- Settles O30: the slot on top read, its index popped. -/
theorem retPopsTheReturnAddress : Obligations.RetPopsTheReturnAddress := by
  intro s j hsp
  exact ⟨_, exec_ret_of_top hsp, rfl, fun h => poppedIndex_of_pos h, fun h => h ▸ poppedIndex_zero, fun _ => rfl,
    sameButStack_committed s _ _ _⟩

/-- Settles O31: the next index pushed, its slot written. -/
theorem callPushesTheReturnAddress : Obligations.CallPushesTheReturnAddress := by
  intro s nnn hsp
  obtain ⟨j, hj⟩ := exists_pushedIndex hsp
  obtain ⟨hempty, hnext⟩ := pushedIndex_spec hj
  refine ⟨_, exec_call_of_room nnn hj, rfl, ⟨j, rfl, hempty, hnext, ?_, fun k hk => ?_⟩,
    sameButStack_committed s _ _ _⟩
  · exact Vector.getElem_set_self _
  · exact Vector.getElem_set_ne j.isLt k.isLt fun e => hk (Fin.ext e.symm)

/-- Settles O32: CALL and RET at the two ends of the stack. -/
theorem stackLimitsFault : Obligations.StackLimitsFault :=
  fun _ => ⟨fun nnn h => exec_call_of_full nnn h, fun h => exec_ret_of_empty h⟩

/-- Settles O33: RET pops the index CALL pushed and reads the slot CALL wrote. -/
theorem callThenReturnRestores : Obligations.CallThenReturnRestores := by
  intro s nnn hsp
  obtain ⟨j, hj⟩ := exists_pushedIndex hsp
  refine ⟨_, _, exec_call_of_room nnn hj, exec_ret_of_top rfl, ?_, poppedIndex_of_pushed hj,
    sameButStack_committed s _ _ _⟩
  exact Vector.getElem_set_self _

/-! ### Skips on registers and keys -/

theorem exec_seVV (x y : Reg) (s : State) :
    exec (.seVV x y) s = .next (s.advance.skipIf (s.reg x == s.reg y)).committed := rfl

theorem exec_sneVV (x y : Reg) (s : State) :
    exec (.sneVV x y) s = .next (s.advance.skipIf (s.reg x != s.reg y)).committed := rfl

/-- Settles O37: the words by the decoder's inversion, the illegal last nibbles by the list of illegal words, the effect
by the rule of a committed skip. -/
theorem registerSkipsCompare : Obligations.RegisterSkipsCompare := by
  intro x y
  refine ⟨fun w => decode_eq_some_iff rfl, fun w => decode_eq_some_iff rfl, fun w hop hn => ?_, fun s => ⟨?_, ?_⟩⟩
  · rw [decode_eq_none_iff]
    rcases hop with h5 | h9
    · exact .inr (.inl ⟨h5, hn⟩)
    · exact .inr (.inr (.inr (.inl ⟨h9, hn⟩)))
  · simpa using completes_of_exec_eq_skip (exec_seVV x y s)
  · simpa using completes_of_exec_eq_skip (exec_sneVV x y s)

theorem State.withKeyIndex_of_le {s : State} {k : Byte} (h : k.toNat ≤ 15) (done : State) :
    s.withKeyIndex k done = done.committed := if_neg (by omega)

theorem State.withKeyIndex_of_gt {s : State} {k : Byte} (h : 15 < k.toNat) (done : State) :
    s.withKeyIndex k done = s.raise (.outOfBounds k.toNat) := if_pos h

theorem exec_skp (x : Reg) (s : State) : exec (.skp x) s =
    .next (s.withKeyIndex (s.reg x) (s.advance.skipIf (s.keyPressed (s.reg x).toNat))) := rfl

theorem exec_sknp (x : Reg) (s : State) : exec (.sknp x) s =
    .next (s.withKeyIndex (s.reg x) (s.advance.skipIf (!s.keyPressed (s.reg x).toNat))) := rfl

/-- Settles O38: with an index of a key the check passes, and the rule of a committed skip applies. -/
theorem keySkipsTestTheKey : Obligations.KeySkipsTestTheKey := by
  intro s x hx
  have hskp := exec_skp x s
  have hsknp := exec_sknp x s
  rw [State.withKeyIndex_of_le hx] at hskp hsknp
  refine ⟨completes_of_exec_eq_skip hskp, ?_⟩
  simpa only [State.keyPressed, Bool.not_eq_true', ← Bool.not_eq_true, ite_not] using completes_of_exec_eq_skip hsknp

/-- Settles O39: the check of the index fails. -/
theorem keySkipsFaultAboveFifteen : Obligations.KeySkipsFaultAboveFifteen := by
  intro s x hx
  constructor
  · rw [TakesFault, exec_skp, State.withKeyIndex_of_gt hx]; rfl
  · rw [TakesFault, exec_sknp, State.withKeyIndex_of_gt hx]; rfl

/-! ### Arithmetic that writes a flag -/

/-- Every instruction that answers a committed write of V[x] and then of VF. -/
theorem completes_of_exec_eq_setReg_setVF {i : Instr} {s : State} {x : Reg} {b f : Byte}
    (h : exec i s = .next ((s.advance.setReg x b).setVF f).committed) :
    Completes i s fun t => t.reg Reg.vf = f ∧ (x ≠ Reg.vf → t.reg x = b) ∧
      (∀ r, r ≠ x → r ≠ Reg.vf → t.reg r = s.reg r) ∧ t.pc = s.pc + 2 ∧ SameButRegs s t := by
  refine ⟨_, h, ?_, fun hx => ?_, fun r hr hvf => ?_, rfl, sameButRegs_committed s _ _⟩
  · exact State.reg_setReg_same _ Reg.vf f
  · rw [State.committed_reg, State.reg_setVF, if_neg hx, State.reg_setReg_same]
  · rw [State.committed_reg, State.reg_setVF, if_neg hvf, State.reg_setReg_of_ne _ b hr, State.advance_reg]

/-- Every instruction that answers a committed write of VF and then of V[x]. -/
theorem completes_of_exec_eq_setVF_setReg {i : Instr} {s : State} {x : Reg} {b f : Byte}
    (h : exec i s = .next ((s.advance.setVF f).setReg x b).committed) :
    Completes i s fun t => t.reg x = b ∧ (x ≠ Reg.vf → t.reg Reg.vf = f) ∧
      (∀ r, r ≠ x → r ≠ Reg.vf → t.reg r = s.reg r) ∧ t.pc = s.pc + 2 ∧ SameButRegs s t := by
  refine ⟨_, h, ?_, fun hx => ?_, fun r hr hvf => ?_, rfl, sameButRegs_committed s _ _⟩
  · exact State.reg_setReg_same _ x b
  · rw [State.committed_reg, State.reg_setReg_of_ne _ b hx.symm, State.reg_setVF, if_pos rfl]
  · rw [State.committed_reg, State.reg_setReg_of_ne _ b hr, State.reg_setVF, if_neg hvf, State.advance_reg]

theorem flagByte_decide (p : Prop) [Decidable p] : flagByte (decide p) = if p then 1 else 0 := by
  simp [flagByte]

/-- An operand read once VF holds the flag. -/
theorem State.reg_advance_setVF (s : State) (r : Reg) (f : Byte) :
    (s.advance.setVF f).reg r = if r = Reg.vf then f else s.reg r := State.reg_setVF s.advance r f

theorem exec_addVV (x y : Reg) (s : State) : exec (.addVV x y) s =
    .next ((s.advance.setReg x (s.reg x + s.reg y)).setVF (carryFlag (s.reg x) (s.reg y))).committed := rfl

/-- Settles O42: the sum is written first, then the carry of the old operands. -/
theorem addWritesSumThenCarry : Obligations.AddWritesSumThenCarry := by
  intro s x y
  refine (completes_of_exec_eq_setReg_setVF (exec_addVV x y s)).mono ?_
  rintro t ⟨hflag, hsum, hframe⟩
  exact ⟨hflag.trans (flagByte_decide _), fun hx => (hsum hx) ▸ BitVec.toNat_add _ _, hframe⟩

theorem exec_subVV (x y : Reg) (s : State) {f : Byte} (hf : f = greaterFlag (s.reg x) (s.reg y)) :
    exec (.subVV x y) s = .next ((s.advance.setVF f).setReg x
      ((if x = Reg.vf then f else s.reg x) - if y = Reg.vf then f else s.reg y)).committed := by
  rw [← State.reg_advance_setVF, ← State.reg_advance_setVF, hf]; rfl

theorem exec_subnVV (x y : Reg) (s : State) {f : Byte} (hf : f = greaterFlag (s.reg y) (s.reg x)) :
    exec (.subnVV x y) s = .next ((s.advance.setVF f).setReg x
      ((if y = Reg.vf then f else s.reg y) - if x = Reg.vf then f else s.reg x)).committed := by
  rw [← State.reg_advance_setVF, ← State.reg_advance_setVF, hf]; rfl

/-- The cases of an operand VF, where V[x] becomes `d` of the operands and the flag `f` is written before they are read. -/
theorem flag_first_cases {s t : State} {x y : Reg} {f : Byte} (d : Byte → Byte → Byte) (hd : d f f = 0)
    (hx : t.reg x = d (if x = Reg.vf then f else s.reg x) (if y = Reg.vf then f else s.reg y))
    (hvf : x ≠ Reg.vf → t.reg Reg.vf = f) :
    (x ≠ Reg.vf → y ≠ Reg.vf → t.reg x = d (s.reg x) (s.reg y) ∧ t.reg Reg.vf = f) ∧
    (x = Reg.vf → y ≠ Reg.vf → t.reg Reg.vf = d f (s.reg y)) ∧
    (x ≠ Reg.vf → y = Reg.vf → t.reg x = d (s.reg x) f ∧ t.reg Reg.vf = f) ∧
    (x = Reg.vf → y = Reg.vf → t.reg Reg.vf = 0) := by
  refine ⟨fun h h' => ⟨?_, hvf h⟩, ?_, fun h h' => ⟨?_, hvf h⟩, ?_⟩
  · rw [hx, if_neg h, if_neg h']
  · rintro rfl h'; rw [hx, if_pos rfl, if_neg h']
  · rw [hx, if_neg h, if_pos h']
  · rintro rfl h'; rw [hx, if_pos rfl, if_pos h', hd]

/-- Settles O43: the flag is written first, so it is what an operand VF reads. -/
theorem subWritesFlagThenDifference : Obligations.SubWritesFlagThenDifference := by
  intro s x y f hf
  refine (completes_of_exec_eq_setVF_setReg (exec_subVV x y s (hf.trans (flagByte_decide _).symm))).mono ?_
  rintro t ⟨hx, hvf, hframe⟩
  obtain ⟨hboth, hxf, hyf, hff⟩ := flag_first_cases (fun a b => a - b) (BitVec.sub_self f) hx hvf
  exact ⟨hboth, hxf, hyf, hff, hframe⟩

/-- Settles O44: as SUB, the operands exchanged. -/
theorem subnWritesFlagThenDifference : Obligations.SubnWritesFlagThenDifference := by
  intro s x y f hf
  refine (completes_of_exec_eq_setVF_setReg (exec_subnVV x y s (hf.trans (flagByte_decide _).symm))).mono ?_
  rintro t ⟨hx, hvf, hframe⟩
  obtain ⟨hboth, hxf, hyf, hff⟩ := flag_first_cases (fun a b => b - a) (BitVec.sub_self f) hx hvf
  exact ⟨hboth, hxf, hyf, hff, hframe⟩

theorem exec_shr (x y : Reg) (s : State) : exec (.shr x y) s = .next ((s.advance.setVF (lowBitFlag (s.reg x))).setReg x
    ((if x = Reg.vf then lowBitFlag (s.reg x) else s.reg x) >>> 1)).committed := by
  rw [← State.reg_advance_setVF]; rfl

theorem exec_shl (x y : Reg) (s : State) : exec (.shl x y) s = .next ((s.advance.setVF (highBitFlag (s.reg x))).setReg x
    ((if x = Reg.vf then highBitFlag (s.reg x) else s.reg x) <<< 1)).committed := by
  rw [← State.reg_advance_setVF]; rfl

theorem lowBitFlag_toNat (b : Byte) : (lowBitFlag b).toNat = b.toNat % 2 := by
  rw [lowBitFlag, BitVec.toNat_and]
  exact Nat.and_one_is_mod _

theorem highBitFlag_toNat (b : Byte) : (highBitFlag b).toNat = b.toNat / 128 := by
  rw [highBitFlag, BitVec.toNat_ushiftRight, Nat.shiftRight_eq_div_pow]

theorem shiftRight_one_toNat (b : Byte) : (b >>> 1).toNat = b.toNat / 2 := by
  rw [BitVec.toNat_ushiftRight, Nat.shiftRight_eq_div_pow]

theorem shiftLeft_one_toNat (b : Byte) : (b <<< 1).toNat = 2 * b.toNat % 256 := by
  rw [BitVec.toNat_shiftLeft, Nat.shiftLeft_eq, Nat.mul_comm]

/-- Settles O45: the flag is the bit shifted out, and what is shifted is the flag itself when x = 15. -/
theorem shiftsWriteFlagThenResult : Obligations.ShiftsWriteFlagThenResult := by
  intro s x y
  have hbyte := (s.reg x).isLt
  constructor
  · refine (completes_of_exec_eq_setVF_setReg (exec_shr x y s)).mono ?_
    rintro t ⟨hx, hvf, hframe⟩
    refine ⟨fun h => ⟨?_, ?_⟩, ?_, hframe⟩
    · rw [hx, if_neg h, shiftRight_one_toNat]
    · rw [hvf h, lowBitFlag_toNat]
    · rintro rfl
      rw [hx, if_pos rfl]
      refine BitVec.eq_of_toNat_eq ?_
      rw [shiftRight_one_toNat, lowBitFlag_toNat]
      show _ = 0
      omega
  · refine (completes_of_exec_eq_setVF_setReg (exec_shl x y s)).mono ?_
    rintro t ⟨hx, hvf, hframe⟩
    refine ⟨fun h => ⟨?_, ?_⟩, ?_, hframe⟩
    · rw [hx, if_neg h, shiftLeft_one_toNat]
    · rw [hvf h, highBitFlag_toNat]
    · rintro rfl
      rw [hx, if_pos rfl, shiftLeft_one_toNat, highBitFlag_toNat]
      omega

theorem exec_rnd (x : Reg) (kk : Byte) (s : State) :
    exec (.rnd x kk) s = .next (s.advance.setReg x (s.rnd &&& kk)).committed := rfl

/-- Settles O46: the words by the decoder's inversion, the effect by the rule of a committed register write. -/
theorem rndMasksTheRandomByte : Obligations.RndMasksTheRandomByte := by
  intro x kk
  refine ⟨fun w => decode_eq_some_iff rfl, fun s => ?_⟩
  exact completes_of_exec_eq_setReg (exec_rnd x kk s) fun t hx b => hx ▸ BitVec.getLsbD_and

/-! ### The index register -/

/-- Settles O47: the words by the decoder's inversion, the address as a number, the frame of a committed write of I. -/
theorem indexLoadAndAddWriteI : Obligations.IndexLoadAndAddWriteI := by
  refine ⟨fun nnn => ⟨fun w => decode_eq_some_iff rfl, fun s => ?_⟩,
    fun x => ⟨fun w => decode_eq_some_iff rfl, fun s => ?_⟩⟩
  · exact ⟨_, rfl, addrWord_toNat nnn, rfl, sameButI_committed s _ _⟩
  · refine ⟨_, rfl, ?_, rfl, sameButI_committed s _ _⟩
    rw [← byteWord_toNat]
    exact BitVec.toNat_add _ _

/-- Five times a byte does not wrap. -/
theorem glyphAddress_toNat (b : Byte) : (glyphAddress b).toNat = b.toNat * 5 := by
  have hb := b.isLt
  rw [glyphAddress, BitVec.toNat_mul, byteWord_toNat]
  exact Nat.mod_eq_of_lt (by simp; omega)

/-- Settles O48: the glyph's address as a number, the frame of a committed write of I. -/
theorem glyphAddressIsFiveTimesVx : Obligations.GlyphAddressIsFiveTimesVx :=
  fun s x => ⟨_, rfl, glyphAddress_toNat (s.reg x), rfl, sameButI_committed s _ _⟩

/-! ### The sound timer and the key wait -/

/-- Settles O55: the words by the decoder's inversion, the effect of a committed write of ST. -/
theorem soundTimerLoadCopiesTheByte : Obligations.SoundTimerLoadCopiesTheByte := by
  intro x
  refine ⟨fun w => decode_eq_some_iff rfl, fun s => ⟨_, rfl, rfl, rfl, rfl, decide_eq_true_iff, fun _ => rfl, rfl,
    ⟨rfl, fun _ => rfl⟩, fun _ _ => rfl, ⟨rfl, fun _ => rfl⟩, rfl, rfl, rfl, rfl, rfl, rfl⟩⟩

/-- The pressed key below which none is pressed is the one found. -/
theorem State.firstPressedKey_eq_some {s : State} {k : Fin 16} (hk : s.keyPressed k = true)
    (hlow : ∀ j : Fin 16, j < k → s.keyPressed j = false) : s.firstPressedKey = some k := by
  cases h : s.firstPressedKey with
  | none => simp [State.firstPressedKey_eq_none.mp h k] at hk
  | some m =>
    obtain ⟨hm, hmlow⟩ := State.firstPressedKey_spec h
    rcases lt_trichotomy m k with hlt | rfl | hlt
    · simp [hlow m hlt] at hm
    · rfl
    · simp [hmlow k hlt] at hk

theorem exec_ldVK_of_pressed {s : State} {k : Fin 16} (x : Reg) (h : s.firstPressedKey = some k) :
    exec (.ldVK x) s = .next (s.advance.setReg x (BitVec.ofNat 8 k.val)).committed := by
  simp [exec, execLdVK, h]

theorem exec_ldVK_of_none {s : State} (x : Reg) (h : s.firstPressedKey = none) :
    exec (.ldVK x) s = .next s.waiting := by
  simp [exec, execLdVK, h]

/-- Settles O56: the key found is the lowest pressed one, written by the rule of a committed register write. -/
theorem keyWaitTakesTheLowestPressedKey : Obligations.KeyWaitTakesTheLowestPressedKey := by
  intro s x k hk hlow
  have hfound := State.firstPressedKey_eq_some (s := s) hk fun j hj => hlow j.val hj
  refine completes_of_exec_eq_setReg (exec_ldVK_of_pressed x hfound) fun t hx => ?_
  rw [hx, BitVec.toNat_ofNat]
  omega

/-- Settles O57: no key is found. -/
theorem keyWaitCommitsNothing : Obligations.KeyWaitCommitsNothing :=
  fun _ x hkeys => exec_ldVK_of_none x (State.firstPressedKey_eq_none_iff_keys.mpr hkeys)

/-! ### A jump to itself -/

/-- The word of a jump to an address of memory is the one R155 writes. -/
theorem selfJumpWord_eq {pc : Word} (h : pc.toNat ≤ 0xFFE) : 0x1000#16 ||| pc = 0x1#4 ++ pc.setWidth 12 := by
  refine BitVec.eq_of_toNat_eq ?_
  rw [BitVec.toNat_or, BitVec.toNat_append, BitVec.toNat_setWidth, Nat.mod_eq_of_lt (by omega)]
  rfl

theorem addrWord_setWidth {pc : Word} (h : pc.toNat ≤ 0xFFE) : addrWord (pc.setWidth 12) = pc := by
  refine BitVec.eq_of_toNat_eq ?_
  rw [addrWord_toNat, BitVec.toNat_setWidth]
  omega

/-- Settles O58: the word at pc is JP to pc, and a committed jump to pc changes nothing of the block. -/
theorem selfJumpChangesNothing : Obligations.SelfJumpChangesNothing := by
  rintro s keys rnd ⟨hrun, hpc, hword⟩ hn
  have hw : (s.afterTaking.sample keys rnd).fetchWord = s.fetchWord := by simp [State.fetchWord]
  have hdecode : decode (s.afterTaking.sample keys rnd).fetchWord = some (.jp (s.pc.setWidth 12)) := by
    rw [hw, hword, selfJumpWord_eq hpc]
    exact decode_eq_jp_iff.mpr rfl
  have hstep : step s = .next ((s.afterTaking.sample keys rnd).jumpTo s.pc).committed := by
    rw [step_of_cycle hn, runCycle_of_decode (by simpa using hrun) (by simpa using hpc) hdecode, exec_jp,
      addrWord_setWidth hpc]
  refine ⟨_, hstep, rfl, ⟨⟨⟨keys, rnd, hn⟩, hstep, rfl⟩, by simpa using hrun, hpc, ?_⟩, ?_⟩
  · simpa [State.fetchWord] using hword
  · simp [SameRegs, SameI, SameStack, SameTimers, SameDisplay, SameMemory, State.reg]

end Sys2Proof.Machine
end

section
/-! The moves between registers and memory and the sprites (44_index_memory.md, 40_display.md R84), with the obligations
O28, O29 and O49 to O53. -/

namespace Sys2Proof.Machine

theorem accessInRange_of_le {s : State} {n : Nat} (h : s.I.toNat + n ≤ 0xFFF) : AccessInRange s (n + 1) :=
  fun k hk => by omega

/-! ### Stores -/

theorem exec_ldBV (x : Reg) (s : State) : exec (.ldBV x) s =
    .next (s.withAccess 3 { s.advance with mem := s.mem.writeList s.I.toNat (bcdDigits (s.reg x)) }) := rfl

theorem exec_ldMemV (x : Reg) (s : State) : exec (.ldMemV x) s =
    .next (s.withAccess (x.val + 1) { s.advance with mem := s.mem.writeList s.I.toNat (s.regsUpTo x) }) := rfl

theorem exec_ldVMem (x : Reg) (s : State) : exec (.ldVMem x) s =
    .next (s.withAccess (x.val + 1) (s.advance.setRegsFrom 0 (s.mem.readList s.I.toNat (x.val + 1)))) := rfl

/-- Every instruction that answers a committed store of bytes at I. -/
theorem completes_of_exec_eq_store {i : Instr} {s : State} {bs : List Byte}
    (h : exec i s = .next { s.advance with mem := s.mem.writeList s.I.toNat bs }.committed) :
    Completes i s fun t => (∀ k (hk : k < bs.length), t.mem.read (s.I.toNat + k) = bs[k]) ∧ t.pc = s.pc + 2 ∧
      SameButBytes s t s.I.toNat bs.length :=
  ⟨_, h, fun _ hk => Memory.read_writeList_inside s.mem bs hk, rfl, fun _ => rfl, rfl, ⟨rfl, fun _ => rfl⟩, ⟨rfl, rfl⟩,
    fun _ _ => rfl, ⟨Memory.writeList_font _ _ _, fun _ hp => Memory.read_writeList_outside s.mem bs hp⟩,
    rfl, rfl, rfl, rfl, rfl, rfl⟩

/-- Settles O49: the three digits stored, each below 256. -/
theorem bcdStoresThreeDigits : Obligations.BcdStoresThreeDigits := by
  intro s x hI
  have hexec := exec_ldBV x s
  rw [State.withAccess_of_inRange (accessInRange_of_le hI)] at hexec
  refine (completes_of_exec_eq_store hexec).mono ?_
  rintro t ⟨hbytes, hframe⟩
  have hx := (s.reg x).isLt
  refine ⟨?_, ?_, ?_, hframe⟩
  · exact (congrArg BitVec.toNat (hbytes 0 (show 0 < 3 by decide))).trans (Nat.mod_eq_of_lt (by omega))
  · exact (congrArg BitVec.toNat (hbytes 1 (show 1 < 3 by decide))).trans (Nat.mod_eq_of_lt (by omega))
  · exact (congrArg BitVec.toNat (hbytes 2 (show 2 < 3 by decide))).trans (Nat.mod_eq_of_lt (by omega))

/-- Settles O50: the registers V0 to Vx stored in their order. -/
theorem blockStoreWritesV0ToVx : Obligations.BlockStoreWritesV0ToVx := by
  intro s x hI
  have hexec := exec_ldMemV x s
  rw [State.withAccess_of_inRange (accessInRange_of_le hI)] at hexec
  refine (completes_of_exec_eq_store hexec).mono ?_
  rintro t ⟨hbytes, hpc, hframe⟩
  rw [State.regsUpTo_length] at hframe
  refine ⟨fun k hk => ?_, hpc, hframe⟩
  have hlen : k.val < (s.regsUpTo x).length := by rw [State.regsUpTo_length]; exact Nat.lt_succ_of_le hk
  rw [hbytes k.val hlen, State.regsUpTo_getElem, Fin.ofNat_val_eq_self]

/-- Settles O51: a register up to Vx holds the byte read for it, one above Vx none. -/
theorem blockLoadReadsV0ToVx : Obligations.BlockLoadReadsV0ToVx := by
  intro s x hI
  have hexec := exec_ldVMem x s
  rw [State.withAccess_of_inRange (accessInRange_of_le hI)] at hexec
  refine ⟨_, hexec, fun k => ?_, by simp, ?_⟩
  · rw [State.committed_reg, State.reg_setRegsFrom _ _ _ _ (by simp), if_pos (Nat.zero_le _), Nat.sub_zero]
    split
    · have hlen : k.val < (s.mem.readList s.I.toNat (x.val + 1)).length := by
        rw [Memory.readList_length]; exact Nat.lt_succ_of_le ‹k ≤ x›
      rw [List.getElem?_eq_getElem hlen, Option.getD_some, Memory.readList_getElem]
    · rw [List.getElem?_eq_none (by rw [Memory.readList_length]; exact not_le.mp ‹¬ k ≤ x›)]
      rfl
  · rw [State.setRegsFrom_eq]
    exact sameButRegs_committed s _ _

/-- Settles O52: the check of an access fails at the larger of I and 0x1000. -/
theorem accessOutsideMemoryFaults : Obligations.AccessOutsideMemoryFaults := by
  intro s x y n
  refine ⟨fun h => ?_, fun h => ⟨?_, ?_⟩, fun hn h => ?_⟩
  · rw [TakesFault, exec_ldBV, State.withAccess_of_outside (by decide) h]; rfl
  · rw [TakesFault, exec_ldMemV, State.withAccess_of_outside (Nat.succ_pos _) h]; rfl
  · rw [TakesFault, exec_ldVMem, State.withAccess_of_outside (Nat.succ_pos _) h]; rfl
  · exact congrArg Host.Outcome.next (State.withAccess_of_outside hn h _)

/-- Settles O53: V0 and V1 are stored at the address pc moves to. -/
theorem storedWordIsFetchedNext : Obligations.StoredWordIsFetchedNext := by
  intro s t hpc hI ht
  have hrange : s.I.toNat + 1 ≤ 0xFFF := by rw [hI, add_two_toNat (by omega)]; omega
  obtain ⟨t', ht', hbytes, hpc', _⟩ := blockStoreWritesV0ToVx s 1 hrange
  obtain rfl : t = t' := by simpa [ht] using ht'
  have hfetch : t.pc = s.I := hpc'.trans hI.symm
  refine ⟨hfetch, ?_⟩
  have h0 := hbytes 0 (by decide)
  have h1 := hbytes 1 (by decide)
  rw [State.fetchWord, hfetch]
  exact congrArg₂ wordOfBytes h0 h1

/-! ### Sprites -/

/-- Drawing a sprite toggles the pixels its 1 bits fall on. -/
theorem drawSprite_toggles (s : State) (x y : Reg) {n : Nat} (hn : n < 16) :
    Canvas.Toggles ⟨s.fb, false⟩ (s.drawSprite x y n) (SpriteCovers s x y n) := by
  refine (Canvas.drawRows_toggles _ _ _ _ (by rw [Memory.readList_length]; omega)).congr fun d r => ?_
  constructor
  · rintro ⟨k, j, hk, hj, hd, hr, hb⟩
    rw [Memory.readList_getElem] at hb
    rw [Memory.readList_length] at hk
    exact ⟨k, j, hk, hj, hd, hr, hb⟩
  · rintro ⟨k, j, hk, hj, hd, hr, hb⟩
    refine ⟨k, j, by rwa [Memory.readList_length], hj, hd, hr, ?_⟩
    rwa [Memory.readList_getElem]

theorem exec_drw (x y : Reg) (n : Nat) (s : State) : exec (.drw x y n) s = .next (s.withAccess n
    ({ s.advance with fb := (s.drawSprite x y n).fb }.setVF (flagByte (s.drawSprite x y n).collision))) := rfl

theorem flagByte_eq_zero_or_one (b : Bool) : flagByte b = 0 ∨ flagByte b = 1 := by cases b <;> decide

theorem flagByte_eq_one_iff {b : Bool} : flagByte b = 1 ↔ b = true := by cases b <;> decide

/-- Settles O28: the sprite's toggles, starting without a collision, and the frame of DRW. -/
theorem drwXorsTheSpriteAndReportsCollision : Obligations.DrwXorsTheSpriteAndReportsCollision := by
  intro s x y n hn hrange
  have hexec := exec_drw x y n s
  rw [State.withAccess_of_inRange hrange] at hexec
  obtain ⟨hpixel, hcollision⟩ := drawSprite_toggles s x y hn
  have hvf : ∀ u : State, ∀ f : Byte, (u.setVF f).committed.reg Reg.vf = f := fun u f => State.reg_setReg_same u Reg.vf f
  refine ⟨_, hexec, fun c r => ?_, ?_, ?_, fun r hr => ?_, rfl, rfl, ⟨rfl, fun _ => rfl⟩, ⟨rfl, rfl⟩, ⟨rfl, fun _ => rfl⟩,
    rfl, rfl, rfl, rfl, rfl, rfl⟩
  · refine (hpixel c r).trans ?_
    cases s.fb.pixel c r <;> simp
  · rw [hvf]; exact flagByte_eq_zero_or_one _
  · rw [hvf, flagByte_eq_one_iff, hcollision]; simp
  · rw [State.committed_reg, State.reg_setVF, if_neg hr]; rfl

/-- A sprite is where it was as long as its position, its address and its bytes are. -/
theorem spriteCovers_congr {s t : State} {x y : Reg} (n : Nat) (hx : t.reg x = s.reg x) (hy : t.reg y = s.reg y)
    (hI : SameI s t) (hmem : SameMemory s t) (c : Fin 64) (r : Fin 32) :
    SpriteCovers t x y n c r ↔ SpriteCovers s x y n c r := by
  unfold SpriteCovers
  rw [hx, hy, hI]
  simp only [hmem.2]

/-- A pixel toggled twice, or not at all, under one condition is the pixel it was. -/
theorem eq_of_toggled_twice {a b c : Bool} {p : Prop} (once : b = true ↔ (a = true ∧ ¬ p) ∨ (a = false ∧ p))
    (twice : c = true ↔ (b = true ∧ ¬ p) ∨ (b = false ∧ p)) : c = a := by
  simp only [← Bool.not_eq_true] at once twice
  rw [Bool.eq_iff_iff, twice, once]
  tauto

/-- Settles O29: the second draw covers the pixels the first one covered, so each is toggled twice or not at all. -/
theorem drawingTwiceRestoresTheFramebuffer : Obligations.DrawingTwiceRestoresTheFramebuffer := by
  intro s t u x y n hn hrange hx hy ht hu
  obtain ⟨t', ht', htpixel, htvf, htcollision, htregs, _, htI, _, _, htmem, _⟩ :=
    drwXorsTheSpriteAndReportsCollision s x y n hn hrange
  obtain rfl : t = t' := by simpa [ht] using ht'
  have hranget : AccessInRange t n := by unfold AccessInRange; rw [htI]; exact hrange
  obtain ⟨u', hu', hupixel, _, hucollision, _⟩ := drwXorsTheSpriteAndReportsCollision t x y n hn hranget
  obtain rfl : u = u' := by simpa [hu] using hu'
  have same := spriteCovers_congr n (htregs x hx) (htregs y hy) htI htmem
  refine ⟨fun c r => ?_, fun hblank => ⟨?_, ?_⟩⟩
  · have hagain := hupixel c r
    rw [same] at hagain
    exact eq_of_toggled_twice (htpixel c r) hagain
  · refine htvf.resolve_right fun h => ?_
    obtain ⟨c, r, hset, _⟩ := htcollision.mp h
    rw [hblank] at hset
    cases hset
  · rw [hucollision]
    refine exists_congr fun c => exists_congr fun r => ?_
    rw [same, htpixel c r, hblank c r]
    simp

end Sys2Proof.Machine
end
